-- ==== Sys2Proof/Word.lean ====
section
/-! DEFINITION. The word types of the hardware (spec 00_scope R8, R9, R11; 10_state R21, R24).
All values are unsigned; a value is brought to a width explicitly. -/

namespace Sys2Proof

/-- An 8-bit value: a general register, a byte of memory, the immediate NN. -/
abbrev Byte := BitVec 8

/-- A 16-bit value: the instruction word, `I`, `pc`, a stack entry. -/
abbrev Word := BitVec 16

/-- The 12-bit immediate NNN. -/
abbrev Addr12 := BitVec 12

/-- A 4-bit field: the row count N. -/
abbrev Nibble := BitVec 4

/-- The number of a general register, the fields X and Y: V[0x0] .. V[0xF]. -/
abbrev RegIdx := BitVec 4

/-- A 4-bit key code (spec 46_keys_timers R230). -/
abbrev KeyCode := BitVec 4

/-- One row of the frame buffer, 64 pixels (spec 10_state R20). -/
abbrev PixelRow := BitVec 64

end Sys2Proof
end

