-- ==== Sys2Proof/Syntax.lean ====
section
/-! DEFINITION. The 34 instructions, one constructor per row of the opcode map (spec 30_encoding R96).
A field that an instruction's pattern carries is an argument even where the meaning ignores it (R98: Y of
8XY6 and 8XYE, X of FX55 and FX65 under all16), since the word that a halt records must be recovered. -/

namespace Sys2Proof

/-- The instructions of spec 30_encoding R96, in the order of its rows. -/
inductive Instr where
  /-- 00E0, `CLS` -/
  | cls
  /-- 00EE, `RET` -/
  | ret
  /-- 1NNN, `JP addr` -/
  | jp (nnn : Addr12)
  /-- 2NNN, `CALL addr` -/
  | call (nnn : Addr12)
  /-- 3XNN, `SE Vx, byte` -/
  | seByte (x : RegIdx) (nn : Byte)
  /-- 4XNN, `SNE Vx, byte` -/
  | sneByte (x : RegIdx) (nn : Byte)
  /-- 5XY0, `SE Vx, Vy` -/
  | seReg (x y : RegIdx)
  /-- 6XNN, `LD Vx, byte` -/
  | ldByte (x : RegIdx) (nn : Byte)
  /-- 7XNN, `ADD Vx, byte` -/
  | addByte (x : RegIdx) (nn : Byte)
  /-- 8XY0, `LD Vx, Vy` -/
  | ldReg (x y : RegIdx)
  /-- 8XY1, `OR Vx, Vy` -/
  | orReg (x y : RegIdx)
  /-- 8XY2, `AND Vx, Vy` -/
  | andReg (x y : RegIdx)
  /-- 8XY3, `XOR Vx, Vy` -/
  | xorReg (x y : RegIdx)
  /-- 8XY4, `ADD Vx, Vy` -/
  | addReg (x y : RegIdx)
  /-- 8XY5, `SUB Vx, Vy` -/
  | subReg (x y : RegIdx)
  /-- 8XY6, `SHR Vx` (Y ignored) -/
  | shr (x y : RegIdx)
  /-- 8XY7, `SUBN Vx, Vy` -/
  | subnReg (x y : RegIdx)
  /-- 8XYE, `SHL Vx` (Y ignored) -/
  | shl (x y : RegIdx)
  /-- 9XY0, `SNE Vx, Vy` -/
  | sneReg (x y : RegIdx)
  /-- ANNN, `LD I, addr` -/
  | ldI (nnn : Addr12)
  /-- BNNN, `JP V0, addr` -/
  | jpV0 (nnn : Addr12)
  /-- CXNN, `RND Vx, byte` -/
  | rnd (x : RegIdx) (nn : Byte)
  /-- DXYN, `DRW Vx, Vy, nibble` -/
  | drw (x y : RegIdx) (n : Nibble)
  /-- EX9E, `SKP Vx` -/
  | skp (x : RegIdx)
  /-- EXA1, `SKNP Vx` -/
  | sknp (x : RegIdx)
  /-- FX07, `LD Vx, DT` -/
  | ldVxDT (x : RegIdx)
  /-- FX0A, `LD Vx, K` -/
  | ldVxK (x : RegIdx)
  /-- FX15, `LD DT, Vx` -/
  | ldDTVx (x : RegIdx)
  /-- FX18, `LD ST, Vx` -/
  | ldSTVx (x : RegIdx)
  /-- FX1E, `ADD I, Vx` -/
  | addI (x : RegIdx)
  /-- FX29, `LD F, Vx` -/
  | ldF (x : RegIdx)
  /-- FX33, `LD B, Vx` -/
  | ldB (x : RegIdx)
  /-- FX55, `LD [I], Vx` -/
  | storeRegs (x : RegIdx)
  /-- FX65, `LD Vx, [I]` -/
  | loadRegs (x : RegIdx)
  deriving DecidableEq, Repr

end Sys2Proof
end

