-- ==== Sys2Proof/WellFormed.lean ====
section
/-! DEFINITION. Well-formedness of a term of `Instr` and legality of a word.
Every field of `Instr` has exactly the width the encoding gives it (spec 30_encoding R92), every value of every
field is legal (10_state R22, 30_encoding R98), and so every term is well formed by its type: a term with a register
number 16 or a 13-bit address cannot be written down. What can be ill formed is a WORD; `legalWord` is the table of
illegal words of R100, written independently of the decoder. -/

namespace Sys2Proof

/-- Every operand value of every constructor is legal; one case per constructor, so that a new one cannot slip in. -/
def Instr.wellFormed : Instr → Bool
  | .cls | .ret => true
  | .jp _ | .call _ | .ldI _ | .jpV0 _ => true
  | .seByte _ _ | .sneByte _ _ | .ldByte _ _ | .addByte _ _ | .rnd _ _ => true
  | .seReg _ _ | .sneReg _ _ => true
  | .ldReg _ _ | .orReg _ _ | .andReg _ _ | .xorReg _ _ | .addReg _ _ => true
  | .subReg _ _ | .shr _ _ | .subnReg _ _ | .shl _ _ => true
  | .drw _ _ _ => true
  | .skp _ | .sknp _ => true
  | .ldVxDT _ | .ldVxK _ | .ldDTVx _ | .ldSTVx _ | .addI _ | .ldF _ | .ldB _ => true
  | .storeRegs _ | .loadRegs _ => true

/-- The illegal words, family by family, exactly as spec 30_encoding R100 lists them. -/
def illegalWord (w : Word) : Bool :=
  let family := w.toNat / 0x1000
  let n := w.toNat % 0x10
  let nn := w.toNat % 0x100
  (family == 0 && !(w.toNat == 0x00E0 || w.toNat == 0x00EE))
    || (family == 5 && n != 0)
    || (family == 8 && [0x8, 0x9, 0xA, 0xB, 0xC, 0xD, 0xF].contains n)
    || (family == 9 && n != 0)
    || (family == 0xE && !([0x9E, 0xA1].contains nn))
    || (family == 0xF && !([0x07, 0x0A, 0x15, 0x18, 0x1E, 0x29, 0x33, 0x55, 0x65].contains nn))

/-- A word is legal when R100 does not list it. -/
def legalWord (w : Word) : Bool := !illegalWord w

end Sys2Proof
end

