-- ==== Sys2Proof/Decode.lean ====
section
/-! DEFINITION. The decoder (spec 30_encoding R90 to R100), the encoder, and the opcode map R96 as a table.
Decoding is strict (R95; log 20) and total: a word is one of the 34 rows or illegal, and bytes are rejected by name. -/

namespace Sys2Proof

/-! ## Fields (R92) -/

/-- `OP = w[15:12]` -/
def fieldOP (w : Word) : BitVec 4 := w.extractLsb' 12 4
/-- `X = w[11:8]` -/
def fieldX (w : Word) : RegIdx := w.extractLsb' 8 4
/-- `Y = w[7:4]` -/
def fieldY (w : Word) : RegIdx := w.extractLsb' 4 4
/-- `N = w[3:0]` -/
def fieldN (w : Word) : Nibble := w.extractLsb' 0 4
/-- `NN = w[7:0]` -/
def fieldNN (w : Word) : Byte := w.extractLsb' 0 8
/-- `NNN = w[11:0]` -/
def fieldNNN (w : Word) : Addr12 := w.extractLsb' 0 12

/-! ## The two-level lookup (R94, R95) -/

/-- Family 0: whole words. -/
def decodeFamily0 (w : Word) : Option Instr :=
  if w = 0x00E0#16 then some .cls
  else if w = 0x00EE#16 then some .ret
  else none

/-- Family 8: the low nibble selects (R97). -/
def decodeFamily8 (w : Word) : Option Instr :=
  match fieldN w with
  | 0x0#4 => some (.ldReg (fieldX w) (fieldY w))
  | 0x1#4 => some (.orReg (fieldX w) (fieldY w))
  | 0x2#4 => some (.andReg (fieldX w) (fieldY w))
  | 0x3#4 => some (.xorReg (fieldX w) (fieldY w))
  | 0x4#4 => some (.addReg (fieldX w) (fieldY w))
  | 0x5#4 => some (.subReg (fieldX w) (fieldY w))
  | 0x6#4 => some (.shr (fieldX w) (fieldY w))
  | 0x7#4 => some (.subnReg (fieldX w) (fieldY w))
  | 0xE#4 => some (.shl (fieldX w) (fieldY w))
  | _ => none

/-- Family E: the low byte selects. -/
def decodeFamilyE (w : Word) : Option Instr :=
  match fieldNN w with
  | 0x9E#8 => some (.skp (fieldX w))
  | 0xA1#8 => some (.sknp (fieldX w))
  | _ => none

/-- Family F: the low byte selects. -/
def decodeFamilyF (w : Word) : Option Instr :=
  match fieldNN w with
  | 0x07#8 => some (.ldVxDT (fieldX w))
  | 0x0A#8 => some (.ldVxK (fieldX w))
  | 0x15#8 => some (.ldDTVx (fieldX w))
  | 0x18#8 => some (.ldSTVx (fieldX w))
  | 0x1E#8 => some (.addI (fieldX w))
  | 0x29#8 => some (.ldF (fieldX w))
  | 0x33#8 => some (.ldB (fieldX w))
  | 0x55#8 => some (.storeRegs (fieldX w))
  | 0x65#8 => some (.loadRegs (fieldX w))
  | _ => none

/-- The instruction a word selects, `none` for an illegal word (R99, R100). The last line is family 0xF. -/
def decodeWord (w : Word) : Option Instr :=
  match fieldOP w with
  | 0x0#4 => decodeFamily0 w
  | 0x1#4 => some (.jp (fieldNNN w))
  | 0x2#4 => some (.call (fieldNNN w))
  | 0x3#4 => some (.seByte (fieldX w) (fieldNN w))
  | 0x4#4 => some (.sneByte (fieldX w) (fieldNN w))
  | 0x5#4 => if fieldN w = 0#4 then some (.seReg (fieldX w) (fieldY w)) else none
  | 0x6#4 => some (.ldByte (fieldX w) (fieldNN w))
  | 0x7#4 => some (.addByte (fieldX w) (fieldNN w))
  | 0x8#4 => decodeFamily8 w
  | 0x9#4 => if fieldN w = 0#4 then some (.sneReg (fieldX w) (fieldY w)) else none
  | 0xA#4 => some (.ldI (fieldNNN w))
  | 0xB#4 => some (.jpV0 (fieldNNN w))
  | 0xC#4 => some (.rnd (fieldX w) (fieldNN w))
  | 0xD#4 => some (.drw (fieldX w) (fieldY w) (fieldN w))
  | 0xE#4 => decodeFamilyE w
  | _ => decodeFamilyF w

/-- The two bytes of a word, the high byte first (R90, 20_memory R67). -/
def joinBytes (hi lo : Byte) : Word := hi ++ lo

/-- Why bytes are not decoded. -/
inductive DecodeError where
  /-- fewer than two bytes are left -/
  | truncated
  /-- the word matches no row of R96 -/
  | illegal (w : Word)
  deriving DecidableEq, Repr

/-- The instruction at the head of a list of bytes, with the bytes that follow it. -/
def decode : List Byte → Except DecodeError (Instr × List Byte)
  | hi :: lo :: rest =>
    match decodeWord (joinBytes hi lo) with
    | some i => .ok (i, rest)
    | none => .error (.illegal (joinBytes hi lo))
  | _ => .error .truncated

/-- The word `w` of the opcode table (bit 0 the least significant bit of the one 16-bit word; bits from `nbits` up
are 0), laid out as the hardware stores it and given to the decoder. -/
def decodeTableWord (nbits w : Nat) : Option Instr :=
  let v := w % 2 ^ nbits
  match decode [BitVec.ofNat 8 (v / 256), BitVec.ofNat 8 v] with
  | .ok (i, _) => some i
  | .error _ => none

/-! ## The encoder, from the patterns of R96 by concatenation (R9, R91) -/

/-- A word of the layout `OP NNN`. -/
def wordNNN (op : BitVec 4) (nnn : Addr12) : Word := op ++ nnn
/-- A word of the layout `OP X NN`. -/
def wordXNN (op : BitVec 4) (x : RegIdx) (nn : Byte) : Word := (op ++ x) ++ nn
/-- A word of the layout `OP X Y N`. -/
def wordXYN (op : BitVec 4) (x y : RegIdx) (n : Nibble) : Word := (op ++ x) ++ (y ++ n)

/-- The word of an instruction. -/
def encode : Instr → Word
  | .cls => 0x00E0#16
  | .ret => 0x00EE#16
  | .jp nnn => wordNNN 0x1 nnn
  | .call nnn => wordNNN 0x2 nnn
  | .seByte x nn => wordXNN 0x3 x nn
  | .sneByte x nn => wordXNN 0x4 x nn
  | .seReg x y => wordXYN 0x5 x y 0x0
  | .ldByte x nn => wordXNN 0x6 x nn
  | .addByte x nn => wordXNN 0x7 x nn
  | .ldReg x y => wordXYN 0x8 x y 0x0
  | .orReg x y => wordXYN 0x8 x y 0x1
  | .andReg x y => wordXYN 0x8 x y 0x2
  | .xorReg x y => wordXYN 0x8 x y 0x3
  | .addReg x y => wordXYN 0x8 x y 0x4
  | .subReg x y => wordXYN 0x8 x y 0x5
  | .shr x y => wordXYN 0x8 x y 0x6
  | .subnReg x y => wordXYN 0x8 x y 0x7
  | .shl x y => wordXYN 0x8 x y 0xE
  | .sneReg x y => wordXYN 0x9 x y 0x0
  | .ldI nnn => wordNNN 0xA nnn
  | .jpV0 nnn => wordNNN 0xB nnn
  | .rnd x nn => wordXNN 0xC x nn
  | .drw x y n => wordXYN 0xD x y n
  | .skp x => wordXNN 0xE x 0x9E
  | .sknp x => wordXNN 0xE x 0xA1
  | .ldVxDT x => wordXNN 0xF x 0x07
  | .ldVxK x => wordXNN 0xF x 0x0A
  | .ldDTVx x => wordXNN 0xF x 0x15
  | .ldSTVx x => wordXNN 0xF x 0x18
  | .addI x => wordXNN 0xF x 0x1E
  | .ldF x => wordXNN 0xF x 0x29
  | .ldB x => wordXNN 0xF x 0x33
  | .storeRegs x => wordXNN 0xF x 0x55
  | .loadRegs x => wordXNN 0xF x 0x65

/-- The bytes of an instruction as memory holds them. -/
def encodeBytes (i : Instr) : List Byte :=
  [(encode i).extractLsb' 8 8, (encode i).extractLsb' 0 8]

/-! ## The opcode map as a table (R96), independent of the lookup above -/

/-- The row of R96 an instruction stands in: its number, its mask and its match. -/
structure OpRow where
  row : Nat
  mask : Word
  pat : Word
  deriving DecidableEq, Repr

/-- The number, mask and match of each instruction's row in R96. -/
def Instr.opRow : Instr → OpRow
  | .cls => ⟨1, 0xFFFF, 0x00E0⟩
  | .ret => ⟨2, 0xFFFF, 0x00EE⟩
  | .jp _ => ⟨3, 0xF000, 0x1000⟩
  | .call _ => ⟨4, 0xF000, 0x2000⟩
  | .seByte _ _ => ⟨5, 0xF000, 0x3000⟩
  | .sneByte _ _ => ⟨6, 0xF000, 0x4000⟩
  | .seReg _ _ => ⟨7, 0xF00F, 0x5000⟩
  | .ldByte _ _ => ⟨8, 0xF000, 0x6000⟩
  | .addByte _ _ => ⟨9, 0xF000, 0x7000⟩
  | .ldReg _ _ => ⟨10, 0xF00F, 0x8000⟩
  | .orReg _ _ => ⟨11, 0xF00F, 0x8001⟩
  | .andReg _ _ => ⟨12, 0xF00F, 0x8002⟩
  | .xorReg _ _ => ⟨13, 0xF00F, 0x8003⟩
  | .addReg _ _ => ⟨14, 0xF00F, 0x8004⟩
  | .subReg _ _ => ⟨15, 0xF00F, 0x8005⟩
  | .shr _ _ => ⟨16, 0xF00F, 0x8006⟩
  | .subnReg _ _ => ⟨17, 0xF00F, 0x8007⟩
  | .shl _ _ => ⟨18, 0xF00F, 0x800E⟩
  | .sneReg _ _ => ⟨19, 0xF00F, 0x9000⟩
  | .ldI _ => ⟨20, 0xF000, 0xA000⟩
  | .jpV0 _ => ⟨21, 0xF000, 0xB000⟩
  | .rnd _ _ => ⟨22, 0xF000, 0xC000⟩
  | .drw _ _ _ => ⟨23, 0xF000, 0xD000⟩
  | .skp _ => ⟨24, 0xF0FF, 0xE09E⟩
  | .sknp _ => ⟨25, 0xF0FF, 0xE0A1⟩
  | .ldVxDT _ => ⟨26, 0xF0FF, 0xF007⟩
  | .ldVxK _ => ⟨27, 0xF0FF, 0xF00A⟩
  | .ldDTVx _ => ⟨28, 0xF0FF, 0xF015⟩
  | .ldSTVx _ => ⟨29, 0xF0FF, 0xF018⟩
  | .addI _ => ⟨30, 0xF0FF, 0xF01E⟩
  | .ldF _ => ⟨31, 0xF0FF, 0xF029⟩
  | .ldB _ => ⟨32, 0xF0FF, 0xF033⟩
  | .storeRegs _ => ⟨33, 0xF0FF, 0xF055⟩
  | .loadRegs _ => ⟨34, 0xF0FF, 0xF065⟩

/-- A word selects a row when its masked bits are the row's match (R96). -/
def OpRow.selects (r : OpRow) (w : Word) : Bool := w &&& r.mask == r.pat

/-- All 34 rows of R96, in its order. -/
def opRows : List OpRow :=
  ([.cls, .ret, .jp 0, .call 0, .seByte 0 0, .sneByte 0 0, .seReg 0 0, .ldByte 0 0, .addByte 0 0]
    ++ [.ldReg 0 0, .orReg 0 0, .andReg 0 0, .xorReg 0 0, .addReg 0 0, .subReg 0 0, .shr 0 0, .subnReg 0 0, .shl 0 0]
    ++ [.sneReg 0 0, .ldI 0, .jpV0 0, .rnd 0 0, .drw 0 0 0, .skp 0, .sknp 0]
    ++ [.ldVxDT 0, .ldVxK 0, .ldDTVx 0, .ldSTVx 0, .addI 0, .ldF 0, .ldB 0, .storeRegs 0, .loadRegs 0]
    : List Instr).map Instr.opRow

end Sys2Proof
end

