-- ==== Sys2Proof/Config.lean ====
section
/-! DEFINITION. What is fixed for the machine (spec 00_scope R6) and the free values of the environment (R14).
The OPEN parameters stand in the record `Config`, whose value this hardware takes is `Machine.hardwareConfig`
(Machine/Params.lean); the parameters with one value only are the plain constants below. -/

namespace Sys2Proof

/-- Whether 8XY4, 8XY6 and 8XYE write V[0xF] (spec 43_alu R167). -/
inductive FlagPolicy where
  | canonical
  | reference
  deriving DecidableEq, Repr

/-- What an access outside 0..4095 does (spec 20_memory R66). -/
inductive OobPolicy where
  | fault
  | wrap
  deriving DecidableEq, Repr

/-- How many registers FX55 and FX65 move (spec 44_index_memory R198). -/
inductive RegBlock where
  | all16
  | throughX
  deriving DecidableEq, Repr

/-- The OPEN parameters of spec 00_scope R6. A field of State of this type never changes (log 4). -/
structure Config where
  /-- `STACK_CAPACITY` -/
  stackCapacity : Nat
  /-- `FONT_BASE` -/
  fontBase : Nat
  /-- `FONT_DATA`, 80 bytes -/
  fontData : List Byte
  /-- `FLAG_POLICY` -/
  flagPolicy : FlagPolicy
  /-- `OOB_POLICY` -/
  oobPolicy : OobPolicy
  /-- `REG_BLOCK` -/
  regBlock : RegBlock
  /-- `TICK_US`, one tick in microseconds -/
  tickUs : Nat
  deriving DecidableEq, Repr

/-- `MEM_SIZE` -/
def memSize : Nat := 4096
/-- `LOAD_BASE` -/
def loadBase : Nat := 512
/-- `MAX_IMAGE` = `MEM_SIZE` - `LOAD_BASE` -/
def maxImage : Nat := memSize - loadBase
/-- `FONT_GLYPHS` -/
def fontGlyphs : Nat := 16
/-- `GLYPH_BYTES` -/
def glyphBytes : Nat := 5
/-- `DISPLAY_W` -/
def displayW : Nat := 64
/-- `DISPLAY_H` -/
def displayH : Nat := 32
/-- `INSTR_BYTES` -/
def instrBytes : Nat := 2

/-- The constraint of spec 00_scope R6 on the parameters: the font table has its 80 bytes and lies below the image. -/
def Config.legal (c : Config) : Bool :=
  c.fontData.length == fontGlyphs * glyphBytes && decide (c.fontBase + fontGlyphs * glyphBytes ≤ loadBase)

/-! FREE VALUES (log 2): the answers of the environment that no pending answer of the state fixes. The constants have
no body that Lean can unfold, so that a theorem about them holds for every answer. Each is read at the number of the
read, a counter of the state, so that every read is a fresh one. -/

/-- The answer of the n-th `QuitRequested()`. -/
opaque Config.freeQuit : Nat → Bool
/-- The time in microseconds between the read of `Now()` before the n-th one and the n-th one (log 3). -/
opaque Config.freeElapsed : Nat → Nat
/-- The answer of the n-th `Rand8()`. -/
opaque Config.freeRand : Nat → Byte
/-- The sixteen keys at the n-th `KeyDown` read: bit k is the answer for key code k. -/
opaque Config.freeKeys : Nat → BitVec 16
/-- The answer of the n-th `KeyWait()`. -/
opaque Config.freeKeyWait : Nat → Option KeyCode
/-- The answer of the one `Now()` read made at reset (spec 10_state R42; log 8). -/
opaque Config.freeResetTime : Nat

end Sys2Proof
end

