-- ==== Sys2Proof/Machine/Params.lean ====
section
/-! DEFINITION. The values this hardware takes for the OPEN parameters (spec 00_scope R6) and the default font
(10_state R41). -/

namespace Sys2Proof.Machine

/-- `FONT_DATA`, the default font of spec 10_state R41, glyphs 0 to F, five bytes each.
PRESUMED: the spec itself marks the bytes "from general knowledge, not in source" (log 5). -/
def defaultFont : List Byte :=
  [0xF0, 0x90, 0x90, 0x90, 0xF0] ++ [0x20, 0x60, 0x20, 0x20, 0x70]
    ++ [0xF0, 0x10, 0xF0, 0x80, 0xF0] ++ [0xF0, 0x10, 0xF0, 0x10, 0xF0]
    ++ [0x90, 0x90, 0xF0, 0x10, 0x10] ++ [0xF0, 0x80, 0xF0, 0x10, 0xF0]
    ++ [0xF0, 0x80, 0xF0, 0x90, 0xF0] ++ [0xF0, 0x10, 0x20, 0x40, 0x40]
    ++ [0xF0, 0x90, 0xF0, 0x90, 0xF0] ++ [0xF0, 0x90, 0xF0, 0x10, 0xF0]
    ++ [0xF0, 0x90, 0xF0, 0x90, 0x90] ++ [0xE0, 0x90, 0xE0, 0x90, 0xE0]
    ++ [0xF0, 0x80, 0x80, 0x80, 0xF0] ++ [0xE0, 0x90, 0x90, 0x90, 0xE0]
    ++ [0xF0, 0x80, 0xF0, 0x80, 0xF0] ++ [0xF0, 0x80, 0xF0, 0x80, 0x80]

/-- The parameters' values for this hardware (spec 00_scope R6; logs 5 and 7). -/
def hardwareConfig : Config where
  stackCapacity := 48
  fontBase := 50
  fontData := defaultFont
  flagPolicy := .canonical
  oobPolicy := .fault
  regBlock := .all16
  tickUs := 16667

end Sys2Proof.Machine
end

