-- ==== Sys2Proof/Machine/State.lean ====
section
/-! DEFINITION. The state of the machine (spec 10_state R20 to R42), as plain data, and the state after reset.
The fields named by R20 keep the spec's names. Three fields are the model's own: `cfg` (the parameters, log 4),
`env` (the answers of the environment, log 2) and `outputs` (what the core has emitted, log 12). -/

namespace Sys2Proof.Machine

/-- RUNNING or HALTED (spec 10_state R36). -/
inductive RunState where
  | running
  | halted
  deriving DecidableEq, Repr

/-- The causes of a halt (spec 60_exceptions R261); eight values, the three bits of `halt_cause`. -/
inductive HaltCause where
  /-- the value of `halt_cause` while RUNNING -/
  | none
  | quit
  | pcRange
  | decode
  | stackOverflow
  | stackUnderflow
  | memRange
  | imageTooLarge
  deriving DecidableEq, Repr

/-- A timer (spec 10_state R32): the counter, the microseconds not yet turned into decrements, and the answer of
`Now()` when the timer was last set or decayed. -/
structure Timer where
  count : Byte
  acc : Nat
  ref : Nat
  deriving DecidableEq, Repr

/-- The frame buffer: 32 rows of 64 pixels (spec 10_state R34). Column x of a row is its bit 63 - x, so that the row
written out in binary reads from left to right (log 19). -/
abbrev FrameBuffer := Vector PixelRow 32

/-- What the core emits (spec 00_scope R14). -/
inductive Output where
  /-- `ClearNotify()` -/
  | clearNotify
  /-- `Present()`, with the whole frame buffer -/
  | present (fb : FrameBuffer)
  deriving DecidableEq, Repr

/-- One input port: answers already fixed, oldest first, and how many reads were made. A read takes the oldest fixed
answer; where none is left the answer is a free value of Config (log 2). -/
structure Port (α : Type) where
  pending : List α
  reads : Nat
  deriving DecidableEq, Repr

/-- The environment's answers (spec 00_scope R14). `clock` is the last answer of `Now()`; an answer on the port
`elapsed` is the time since then, so that the answers of `Now()` never decrease (log 3). An answer on the port `keys`
is all sixteen keys (log 16). -/
structure Env where
  quit : Port Bool
  elapsed : Port Nat
  rand : Port Byte
  keys : Port (BitVec 16)
  keyWait : Port (Option KeyCode)
  clock : Nat
  deriving DecidableEq, Repr

/-- The whole state (spec 10_state R20), and the model's own `cfg`, `env`, `outputs`. -/
structure State where
  /-- memory, canonical: what reset leaves before the image is copied is not listed (Machine/Ops.lean; log 13) -/
  mem : List Host.Cell
  /-- the general registers V[0]..V[F] -/
  V : Vector Byte 16
  /-- the index register -/
  I : Word
  /-- the program counter -/
  pc : Word
  /-- the entries of the call stack, `STACK_CAPACITY` of them -/
  stack : List Word
  /-- how many entries are in use -/
  sp : Nat
  /-- the delay timer -/
  DT : Timer
  /-- the sound timer -/
  ST : Timer
  /-- the frame buffer -/
  fb : FrameBuffer
  /-- `image_size` -/
  imageSize : Nat
  /-- `run` -/
  run : RunState
  /-- `halt_cause` -/
  haltCause : HaltCause
  /-- `halt_opcode` -/
  haltOpcode : Word
  /-- `halt_addr` -/
  haltAddr : Word
  /-- the parameters of the machine; no step changes them -/
  cfg : Config
  /-- the environment's answers -/
  env : Env
  /-- the outputs emitted so far, newest first -/
  outputs : List Output
  deriving DecidableEq, Repr

/-- Why a step has no next state. -/
inductive Fault where
  /-- Raised by `step` alone, in a state whose `run` is HALTED: "HALTED is terminal; no resume", the machine has no
  step (spec 40_step_cycle R127, D27). The stuck state of the spec, so safe. -/
  | halted
  deriving DecidableEq, Repr

/-- Why an instruction is refused. -/
inductive Refusal where
  /-- Raised by an arm of `exec` for an instruction with no meaning yet; no arm raises it now. Safe. -/
  | notModelled (mnemonic : String)
  deriving DecidableEq, Repr

/-- What a meaning answers. -/
abbrev Result := Host.Outcome State Fault Refusal

/-- A port at reset: nothing fixed, nothing read (DESIGN CHOICE, log 2). -/
def Port.fresh {α : Type} : Port α := ⟨[], 0⟩

/-- The environment at reset; the one `Now()` read of reset has the free answer `Config.freeResetTime` (log 8). -/
def Env.reset : Env where
  quit := Port.fresh
  elapsed := Port.fresh
  rand := Port.fresh
  keys := Port.fresh
  keyWait := Port.fresh
  clock := Config.freeResetTime

/-- A timer at reset: count and acc 0, ref the answer of `Now()` at reset (spec 10_state R42). -/
def Timer.reset : Timer := ⟨0, 0, Config.freeResetTime⟩

/-- The state after reset with an image of length 0 (spec 70_reset_and_hazards R300, R301; 10_state R42). The reset
with any other image is `resetWith` (Machine/Load.lean; log 9). The zeros are the spec's own decision D9 (log 6). -/
def State.reset : State where
  mem := []
  V := Vector.replicate 16 0
  I := 0
  pc := BitVec.ofNat 16 loadBase
  stack := List.replicate hardwareConfig.stackCapacity 0
  sp := 0
  DT := Timer.reset
  ST := Timer.reset
  fb := Vector.replicate 32 0
  imageSize := 0
  run := .running
  haltCause := .none
  haltOpcode := 0
  haltAddr := 0
  cfg := hardwareConfig
  env := Env.reset
  outputs := []

/-! The named updates of a state, one per piece; each leaves every other field alone. -/

/-- `s` with other general registers. -/
def State.withV (s : State) (v : Vector Byte 16) : State := { s with V := v }
/-- `s` with another index register. -/
def State.withI (s : State) (v : Word) : State := { s with I := v }
/-- `s` with another program counter. -/
def State.withPc (s : State) (v : Word) : State := { s with pc := v }
/-- `s` with another memory. -/
def State.withMem (s : State) (m : List Host.Cell) : State := { s with mem := m }
/-- `s` with other stack entries and another depth. -/
def State.withStack (s : State) (entries : List Word) (depth : Nat) : State := { s with stack := entries, sp := depth }
/-- `s` with another delay timer. -/
def State.withDT (s : State) (t : Timer) : State := { s with DT := t }
/-- `s` with another sound timer. -/
def State.withST (s : State) (t : Timer) : State := { s with ST := t }
/-- `s` with another frame buffer. -/
def State.withFb (s : State) (f : FrameBuffer) : State := { s with fb := f }
/-- `s` with another environment. -/
def State.withEnv (s : State) (e : Env) : State := { s with env := e }
/-- `s` with other outputs. -/
def State.withOutputs (s : State) (o : List Output) : State := { s with outputs := o }
/-- `s` halted, with the halt record written. -/
def State.withHalt (s : State) (cause : HaltCause) (opcode addr : Word) : State :=
  { s with run := .halted, haltCause := cause, haltOpcode := opcode, haltAddr := addr }

end Sys2Proof.Machine
end

