-- ==== Sys2Proof/Machine/Ops.lean ====
section
/-! DEFINITION. The named operations over memory, registers, pc, stack, timers, ports and outputs, and the halt, the
one trap of this hardware (spec 00_scope R10, 10_state R29, R30, 20_memory R64 to R66, 60_exceptions R265, R280 to
R282). An operation that can raise a halt answers `none` for it; the meaning that calls it takes the halt. -/

namespace Sys2Proof.Machine

/-! ## Memory (spec 20_memory, 10_state R42) -/

/-- What an address reads as that nothing has written since reset: the font table, and zero elsewhere (spec 10_state
R42, 20_memory R62; log 13). The image is written over it by the load (Machine/Load.lean). -/
def unlisted (c : Config) (a : Nat) : Byte :=
  if c.fontBase ≤ a ∧ a < c.fontBase + fontGlyphs * glyphBytes then c.fontData.getD (a - c.fontBase) 0 else 0

/-- The byte at an address, `d` giving what unlisted addresses read as. -/
def Memory.read (d : Nat → Byte) : List Host.Cell → Nat → Byte
  | [], a => d a
  | (k, b) :: rest, a => if k = a then b else Memory.read d rest a

/-- The memory without the entry of an address. -/
def Memory.erase : List Host.Cell → Nat → List Host.Cell
  | [], _ => []
  | (k, b) :: rest, a => if k = a then Memory.erase rest a else (k, b) :: Memory.erase rest a

/-- The memory with an entry put in the place its address gives it. -/
def Memory.insert : List Host.Cell → Nat → Byte → List Host.Cell
  | [], a, v => [(a, v)]
  | (k, b) :: rest, a, v => if a < k then (a, v) :: (k, b) :: rest else (k, b) :: Memory.insert rest a v

/-- The memory after a write of one byte; a byte equal to what the unlisted address reads as is not listed. -/
def Memory.write (d : Nat → Byte) (m : List Host.Cell) (a : Nat) (v : Byte) : List Host.Cell :=
  if v = d a then Memory.erase m a else Memory.insert (Memory.erase m a) a v

/-- The canonical form: addresses strictly rising and inside the memory, no entry equal to what its address would
read as unlisted. -/
abbrev Memory.wf (d : Nat → Byte) (m : List Host.Cell) : Prop :=
  m.Pairwise (fun p q => p.1 < q.1) ∧ ∀ p ∈ m, p.1 < memSize ∧ p.2 ≠ d p.1

/-- `Resolve(addr)`: the address of memory that an unbounded address stands for, `none` for Halt(MEM_RANGE)
(spec 20_memory R66). -/
def resolve (c : Config) (addr : Nat) : Option Nat :=
  if addr < memSize then some addr
  else match c.oobPolicy with
    | .fault => none
    | .wrap => some (addr % memSize)

/-- `mem[a]`, for an address that `resolve` has given. -/
def State.readByte (s : State) (a : Nat) : Byte := Memory.read (unlisted s.cfg) s.mem a

/-- `mem[a] <- v`, for an address that `resolve` has given. -/
def State.writeByte (s : State) (a : Nat) (v : Byte) : State :=
  s.withMem (Memory.write (unlisted s.cfg) s.mem a v)

/-- `MemRead(addr, 1)` (spec 20_memory R64). -/
def State.memRead (s : State) (addr : Nat) : Option Byte :=
  match resolve s.cfg addr with
  | none => none
  | some a => some (s.readByte a)

/-- `MemWrite(addr, 1, v)` (spec 20_memory R65). -/
def State.memWrite (s : State) (addr : Nat) (v : Byte) : Option State :=
  match resolve s.cfg addr with
  | none => none
  | some a => some (s.writeByte a v)

/-- The `n` bytes at `addr`, `addr + 1`, ..., read in ascending order (spec 20_memory R69); `none` if any of the
addresses halts, before anything changes (60_exceptions R266). -/
def State.memReadBytes (s : State) (addr : Nat) : Nat → Option (List Byte)
  | 0 => some []
  | n + 1 =>
    match s.memRead addr with
    | none => none
    | some b =>
      match s.memReadBytes (addr + 1) n with
      | none => none
      | some bs => some (b :: bs)

/-- The bytes written at `addr`, `addr + 1`, ... in ascending order (spec 20_memory R69); `none` if any of the
addresses halts, and then nothing is written (60_exceptions R266). -/
def State.memWriteBytes (s : State) (addr : Nat) : List Byte → Option State
  | [] => some s
  | b :: bs =>
    match s.memWrite addr b with
    | none => none
    | some t => t.memWriteBytes (addr + 1) bs

/-! ## General registers (spec 10_state R21, R22) -/

/-- `V[x]` -/
def State.reg (s : State) (x : RegIdx) : Byte := s.V[x.toNat]

/-- `V[x] <- v` -/
def State.setReg (s : State) (x : RegIdx) (v : Byte) : State := s.withV (s.V.set x.toNat v)

/-- `V[k] <- b`, `V[k + 1] <- b'`, ... for the bytes of a list, in ascending order (spec 44_index_memory R200). -/
def writeRegs (v : Vector Byte 16) (k : Nat) : List Byte → Vector Byte 16
  | [] => v
  | b :: bs => writeRegs (v.setIfInBounds k b) (k + 1) bs

/-- `V[0]`, ..., `V[last]` (spec 44_index_memory R198). -/
def State.firstRegs (s : State) (last : RegIdx) : List Byte := s.V.toList.take (last.toNat + 1)

/-! ## The program counter (spec 10_state R26, R27) -/

/-- `INSTR_BYTES` as a value of pc. -/
def instrStep : Word := BitVec.ofNat 16 instrBytes

/-- `pc <- pc + 2`: the post-fetch advance (spec 40_step_cycle R124), and the skip (42_skip R150). -/
def State.advance (s : State) : State := s.withPc (s.pc + instrStep)

/-- `pc <- pc - 2`: back to the instruction's own address (spec 46_keys_timers R234). -/
def State.retreat (s : State) : State := s.withPc (s.pc - instrStep)

/-- A skip if the condition holds (spec 42_skip R150). -/
def State.skipIf (s : State) (taken : Bool) : State := if taken then s.advance else s

/-! ## The call stack (spec 10_state R28 to R30; log 14) -/

/-- `Push(a)`; `none` for Halt(STACK_OVERFLOW). -/
def State.push (s : State) (a : Word) : Option State :=
  if s.cfg.stackCapacity ≤ s.sp then none else some (s.withStack (s.stack.set s.sp a) (s.sp + 1))

/-- `Pop()`: the address and the state after; `none` for Halt(STACK_UNDERFLOW). The entry is not erased
(spec 41_flow R141). -/
def State.pop (s : State) : Option (Word × State) :=
  if s.sp = 0 then none else some (s.stack.getD (s.sp - 1) 0, s.withStack s.stack (s.sp - 1))

/-! ## Halts (spec 60_exceptions R260 to R269) -/

/-- The numeric code of a cause (spec 60_exceptions R261; log 15). -/
def HaltCause.code : HaltCause → BitVec 3
  | .none => 0
  | .quit => 1
  | .pcRange => 2
  | .decode => 3
  | .stackOverflow => 4
  | .stackUnderflow => 5
  | .memRange => 6
  | .imageTooLarge => 7

/-- Success or failure, as an exit code would tell it (spec 60_exceptions R262). -/
inductive ExitClass where
  | success
  | failure
  deriving DecidableEq, Repr

/-- The class of a cause, a function of it and not stored; NONE is no halt (spec 60_exceptions R262). -/
def HaltCause.exitClass : HaltCause → Option ExitClass
  | .none => Option.none
  | .quit | .pcRange => some .success
  | .decode | .stackOverflow | .stackUnderflow | .memRange | .imageTooLarge => some .failure

/-- `Halt(cause)`, the one trap entry (spec 60_exceptions R265): `s` is the state in which nothing but pc has changed
since the start of the step, `addr` the pc at the start of the step, `opcode` the word the step fetched, or 0x0000.
pc is put back, the record written, and `run` becomes HALTED (logs 1, 21). -/
def State.takeHalt (s : State) (cause : HaltCause) (opcode addr : Word) : State :=
  (s.withPc addr).withHalt cause opcode addr

/-- A halt raised in the execute phase of instruction `i`: pc was advanced by 2 and nothing else was changed, and the
word fetched is the word of `i` (spec 60_exceptions R265, R266; log 11). -/
def haltInstr (cause : HaltCause) (i : Instr) (s : State) : Result :=
  .next (s.takeHalt cause (encode i) (s.pc - instrStep))

/-! ## The environment (spec 00_scope R14; logs 2, 3, 16) -/

/-- The answer of the next read of a port: the oldest answer already fixed, else the free value of this read. -/
def Port.answer {α : Type} (free : Nat → α) (p : Port α) : α :=
  match p.pending with
  | a :: _ => a
  | [] => free p.reads

/-- The port after a read. -/
def Port.next {α : Type} (p : Port α) : Port α := ⟨p.pending.tail, p.reads + 1⟩

/-- The answer of `QuitRequested()`. -/
def State.quitAnswer (s : State) : Bool := s.env.quit.answer Config.freeQuit
/-- The state after that read. -/
def State.afterQuit (s : State) : State := s.withEnv { s.env with quit := s.env.quit.next }

/-- The answer of `Now()`: never before the last answer. -/
def State.now (s : State) : Nat := s.env.clock + s.env.elapsed.answer Config.freeElapsed
/-- The state after that read. -/
def State.afterNow (s : State) : State :=
  s.withEnv { s.env with elapsed := s.env.elapsed.next, clock := s.now }

/-- The answer of `Rand8()`. -/
def State.randAnswer (s : State) : Byte := s.env.rand.answer Config.freeRand
/-- The state after that read. -/
def State.afterRand (s : State) : State := s.withEnv { s.env with rand := s.env.rand.next }

/-- The answer of `KeyDown(k)`. -/
def State.keyDownAnswer (s : State) (k : KeyCode) : Bool := (s.env.keys.answer Config.freeKeys).getLsbD k.toNat
/-- The state after that read. -/
def State.afterKeyDown (s : State) : State := s.withEnv { s.env with keys := s.env.keys.next }

/-- The answer of `KeyWait()`. -/
def State.keyWaitAnswer (s : State) : Option KeyCode := s.env.keyWait.answer Config.freeKeyWait
/-- The state after that read. -/
def State.afterKeyWait (s : State) : State := s.withEnv { s.env with keyWait := s.env.keyWait.next }

/-- An output emitted (spec 45_display R218). -/
def State.emit (s : State) (o : Output) : State := s.withOutputs (o :: s.outputs)

/-- The `sound_count` port (spec 00_scope R14). -/
def State.soundCount (s : State) : Byte := s.ST.count

/-! ## Timers (spec 60_exceptions R280 to R284; log 17) -/

/-- What `TimerSet(T, v)` leaves when `Now()` answers `t` (R280). -/
def Timer.set (v : Byte) (t : Nat) : Timer := ⟨v, 0, t⟩

/-- The loop of R281: while a whole tick has accumulated and the count is positive, one decrement and one tick less.
The count bounds the number of rounds. -/
def decayLoop (tick : Nat) : Nat → Nat → Nat × Nat
  | 0, acc => (0, acc)
  | count + 1, acc => if tick ≤ acc then decayLoop tick count (acc - tick) else (count + 1, acc)

/-- What `TimerDecay(T)` leaves when `Now()` answers `t` (R281; a timer at zero: R282). -/
def Timer.decay (tick t : Nat) (T : Timer) : Timer :=
  if T.count = 0 then ⟨0, 0, t⟩
  else
    let r := decayLoop tick T.count.toNat (T.acc + (t - T.ref))
    ⟨BitVec.ofNat 8 r.1, r.2, t⟩

/-- `TimerSet(DT, v)`: one read of the clock. -/
def State.timerSetDT (s : State) (v : Byte) : State := s.afterNow.withDT (Timer.set v s.now)
/-- `TimerSet(ST, v)`: one read of the clock. -/
def State.timerSetST (s : State) (v : Byte) : State := s.afterNow.withST (Timer.set v s.now)
/-- `TimerDecay(DT)`: one read of the clock. -/
def State.timerDecayDT (s : State) : State := s.afterNow.withDT (s.DT.decay s.cfg.tickUs s.now)
/-- `TimerDecay(ST)`: one read of the clock. -/
def State.timerDecayST (s : State) : State := s.afterNow.withST (s.ST.decay s.cfg.tickUs s.now)

end Sys2Proof.Machine
end

