-- ==== Sys2Proof/Machine/Cycle.lean ====
section
/-! DEFINITION. The phases of a step around the execute phase (spec 40_step_cycle R120 to R128): the quit check, the pc
range check, the fetch, and the decay of both timers (logs 17, 21, 22). -/

namespace Sys2Proof.Machine

/-- The pc range check: `LOAD_BASE <= pc <= LOAD_BASE + image_size`, both ends included (R122). -/
def State.pcInRange (s : State) : Bool :=
  decide (loadBase ≤ s.pc.toNat) && decide (s.pc.toNat ≤ loadBase + s.imageSize)

/-- `MemRead(pc, 2)`, the byte at pc in bits 15:8; `none` for Halt(MEM_RANGE) (R123). -/
def State.fetchWord (s : State) : Option Word :=
  match s.memRead s.pc.toNat with
  | none => none
  | some hi =>
    match s.memRead (s.pc.toNat + 1) with
    | none => none
    | some lo => some (joinBytes hi lo)

/-- What comes before the decode. -/
inductive Fetched where
  /-- a halt was taken before a word was fetched; the state after it -/
  | halt (s : State)
  /-- the word fetched, and the state, its pc not advanced yet -/
  | word (w : Word) (s : State)
  deriving DecidableEq, Repr

/-- Quit check, pc range check and fetch, in that order (R120 to R123; the priority of 60_exceptions R267). No word is
fetched in the three halts, so the opcode recorded is 0x0000 (60_exceptions R265). -/
def fetchPhase (s : State) : Fetched :=
  if s.quitAnswer then .halt (s.afterQuit.takeHalt .quit 0 s.pc)
  else if s.pcInRange then
    match s.fetchWord with
    | none => .halt (s.afterQuit.takeHalt .memRange 0 s.pc)
    | some w => .word w s.afterQuit
  else .halt (s.afterQuit.takeHalt .pcRange 0 s.pc)

/-- Halt(DECODE) on an illegal word (R125, 30_encoding R100); pc is not advanced in the state halted. -/
def decodeHalt (w : Word) (s : State) : State := s.takeHalt .decode w s.pc

/-- The end of a step: both timers decay, the delay timer first; a step that halted does not decay (R126,
60_exceptions R266). -/
def finishStep (s : State) : State :=
  match s.run with
  | .running => s.timerDecayDT.timerDecayST
  | .halted => s

/-- The end of a step after the execute phase. -/
def afterExecute : Result → Result
  | .next s => .next (finishStep s)
  | .fault r => .fault r
  | .refused r => .refused r

end Sys2Proof.Machine
end

