-- ==== Sys2Proof/Machine/Flags.lean ====
section
/-! DEFINITION. Every flag computation and the write of the flag register V[0xF] (spec 10_state R23, 43_alu R160,
R167, R177; log 18). The flag is written after the result, so that with X = 0xF the flag remains. -/

namespace Sys2Proof.Machine

/-- A flag as the byte 1 or 0. -/
def flagByte (b : Bool) : Byte := if b then 1 else 0

/-- The carry of 8XY4: the true sum exceeds 255 (spec 43_alu R177). -/
def carryOf (a b : Byte) : Bool := decide (255 < a.toNat + b.toNat)

/-- The flag of a subtraction `a - b`: 1 when there is no borrow (spec 43_alu R177). -/
def noBorrow (a b : Byte) : Bool := decide (b.toNat ≤ a.toNat)

/-- The bit a right shift by one moves out: `a[0]` (spec 43_alu R172). -/
def shiftedOutRight (a : Byte) : Bool := a.getLsbD 0

/-- The bit a left shift by one moves out: `a[7]` (spec 43_alu R176). -/
def shiftedOutLeft (a : Byte) : Bool := a.getLsbD 7

/-- `V[0xF] <- 1` or `0`. -/
def State.setFlag (s : State) (b : Bool) : State := s.setReg 0xF (flagByte b)

/-- The flag write of 8XY4, 8XY6 and 8XYE: only under `FLAG_POLICY = canonical` (spec 43_alu R167). -/
def State.setPolicyFlag (s : State) (b : Bool) : State :=
  match s.cfg.flagPolicy with
  | .canonical => s.setFlag b
  | .reference => s

end Sys2Proof.Machine
end

