-- ==== Sys2Proof/Machine/Operands.lean ====
section
/-! DEFINITION. Every operand form of the instructions (spec 30_encoding R93, 41_flow R140, 44_index_memory R190,
R198, 46_keys_timers R235, 45_display R210, R214). All values are unsigned and zero-extended (log 23). -/

namespace Sys2Proof.Machine

/-- NNN as a value of pc or I: `zext_16(NNN)` (spec 30_encoding R93). -/
def zextAddr (nnn : Addr12) : Word := nnn.setWidth 16

/-- A register's byte as an addend of a 16-bit value. -/
def zextByte (b : Byte) : Word := b.setWidth 16

/-- `zext_8(k)` (spec 46_keys_timers R234). -/
def zextKey (k : KeyCode) : Byte := k.setWidth 8

/-- The key code of EX9E and EXA1: the low four bits of V[X] (spec 46_keys_timers R235). -/
def keyOf (b : Byte) : KeyCode := b.extractLsb' 0 4

/-- The address of the first byte a memory instruction touches, as an unbounded integer; the k-th byte is at
`dataBase s + k` (spec 44_index_memory R190). -/
def State.dataBase (s : State) : Nat := s.I.toNat

/-- The last register FX55 and FX65 move: 15 under all16, X under through_x (spec 44_index_memory R198). -/
def blockLast (c : Config) (x : RegIdx) : RegIdx :=
  match c.regBlock with
  | .all16 => 15
  | .throughX => x

/-- The address FX29 computes: `FONT_BASE + 5 * V[X]`, the whole byte used (spec 44_index_memory R194). -/
def glyphAddr (c : Config) (v : Byte) : Word := BitVec.ofNat 16 (c.fontBase + glyphBytes * v.toNat)

/-- The decimal digits of a byte: hundreds, tens, ones (spec 44_index_memory R196). -/
def bcdDigits (v : Byte) : List Byte :=
  [BitVec.ofNat 8 (v.toNat / 100), BitVec.ofNat 8 (v.toNat / 10 % 10), BitVec.ofNat 8 (v.toNat % 10)]

/-- The column DXYN starts at: `V[X] mod 64` (spec 45_display R214). -/
def startColumn (v : Byte) : Nat := v.toNat % displayW

/-- The row DXYN starts at: `V[Y] mod 32` (spec 45_display R214). -/
def startRow (v : Byte) : Nat := v.toNat % displayH

end Sys2Proof.Machine
end

