-- ==== Sys2Proof/Machine/Alu.lean ====
section
/-! DEFINITION. Load, arithmetic, logic, shift and random (spec 43_alu). Sources are read first, the result is written
to V[X], and then the flag, if any, to V[0xF] (R160). Results are 8 bits and wrap (R177; log 18). -/

namespace Sys2Proof.Machine

/-- 6XNN, LD Vx, byte (R161). -/
def execLdByte (x : RegIdx) (nn : Byte) (s : State) : Result := .next (s.setReg x nn)

/-- 7XNN, ADD Vx, byte: no flag under either policy (R162). -/
def execAddByte (x : RegIdx) (nn : Byte) (s : State) : Result := .next (s.setReg x (s.reg x + nn))

/-- 8XY0, LD Vx, Vy (R163). -/
def execLdReg (x y : RegIdx) (s : State) : Result := .next (s.setReg x (s.reg y))

/-- 8XY1, OR Vx, Vy (R164). -/
def execOrReg (x y : RegIdx) (s : State) : Result := .next (s.setReg x (s.reg x ||| s.reg y))

/-- 8XY2, AND Vx, Vy (R165). -/
def execAndReg (x y : RegIdx) (s : State) : Result := .next (s.setReg x (s.reg x &&& s.reg y))

/-- 8XY3, XOR Vx, Vy (R166). -/
def execXorReg (x y : RegIdx) (s : State) : Result := .next (s.setReg x (s.reg x ^^^ s.reg y))

/-- 8XY4, ADD Vx, Vy (R168). -/
def execAddReg (x y : RegIdx) (s : State) : Result :=
  .next ((s.setReg x (s.reg x + s.reg y)).setPolicyFlag (carryOf (s.reg x) (s.reg y)))

/-- 8XY5, SUB Vx, Vy (R170). -/
def execSubReg (x y : RegIdx) (s : State) : Result :=
  .next ((s.setReg x (s.reg x - s.reg y)).setFlag (noBorrow (s.reg x) (s.reg y)))

/-- 8XY6, SHR Vx: V[X] in place, Y ignored (R172). -/
def execShr (x _y : RegIdx) (s : State) : Result :=
  .next ((s.setReg x (s.reg x >>> 1)).setPolicyFlag (shiftedOutRight (s.reg x)))

/-- 8XY7, SUBN Vx, Vy (R174). -/
def execSubnReg (x y : RegIdx) (s : State) : Result :=
  .next ((s.setReg x (s.reg y - s.reg x)).setFlag (noBorrow (s.reg y) (s.reg x)))

/-- 8XYE, SHL Vx: V[X] in place, Y ignored (R176). -/
def execShl (x _y : RegIdx) (s : State) : Result :=
  .next ((s.setReg x (s.reg x <<< 1)).setPolicyFlag (shiftedOutLeft (s.reg x)))

/-- CXNN, RND Vx, byte: one read of `Rand8()` (R178). -/
def execRnd (x : RegIdx) (nn : Byte) (s : State) : Result := .next (s.afterRand.setReg x (s.randAnswer &&& nn))

end Sys2Proof.Machine
end

