-- ==== Sys2Proof/Machine/Display.lean ====
section
/-! DEFINITION. Display (spec 45_display). A pixel is a bit of a row, column x being bit 63 - x (log 19). -/

namespace Sys2Proof.Machine

/-- `fb[y][x]`, false outside the grid. -/
def pixel (f : FrameBuffer) (y x : Nat) : Bool :=
  if h : y < 32 then decide (x < displayW) && f[y].getMsbD x else false

/-- A sprite byte placed with its bit 7 in column `x0`; the bits right of column 63 are shifted out, that is clipped
(R214, R216 (a)). -/
def spriteRow (b : Byte) (x0 : Nat) : PixelRow := (b.setWidth 64 <<< 56) >>> x0

/-- The sprite's bytes drawn on the rows from `y` on by XOR; a row below the bottom edge is clipped. The flag tells
whether a pixel went from on to off (R214). -/
def drawRows (x0 : Nat) : List Byte → Nat → FrameBuffer → Bool → FrameBuffer × Bool
  | [], _, f, hit => (f, hit)
  | b :: bs, y, f, hit =>
    if h : y < 32 then
      drawRows x0 bs (y + 1) (f.set y (f[y] ^^^ spriteRow b x0)) (hit || (f[y] &&& spriteRow b x0) != 0)
    else drawRows x0 bs (y + 1) f hit

/-- 00E0, CLS (R211). -/
def execCls (s : State) : Result := .next ((s.withFb (Vector.replicate 32 0)).emit .clearNotify)

/-- DXYN, DRW Vx, Vy, nibble (R214): the coordinates are read before V[0xF] is written, all N bytes are read, clipped
or not, and the whole frame buffer is presented at the end. -/
def execDrw (x y : RegIdx) (n : Nibble) (s : State) : Result :=
  match s.memReadBytes s.dataBase n.toNat with
  | none => haltInstr .memRange (.drw x y n) s
  | some rows =>
    let drawn := drawRows (startColumn (s.reg x)) rows (startRow (s.reg y)) s.fb false
    .next (((s.withFb drawn.1).setFlag drawn.2).emit (.present drawn.1))

end Sys2Proof.Machine
end

