-- ==== Sys2Proof/Machine/Flow.lean ====
section
/-! DEFINITION. Control transfer (spec 41_flow). `pc` at entry already holds the address of the following
instruction (40_step_cycle R124). No target is checked here (R140). -/

namespace Sys2Proof.Machine

/-- 00EE, RET (R141). -/
def execRet (s : State) : Result :=
  match s.pop with
  | none => haltInstr .stackUnderflow .ret s
  | some (a, t) => .next (t.withPc a)

/-- 1NNN, JP addr (R142). -/
def execJp (nnn : Addr12) (s : State) : Result := .next (s.withPc (zextAddr nnn))

/-- 2NNN, CALL addr (R144). -/
def execCall (nnn : Addr12) (s : State) : Result :=
  match s.push s.pc with
  | none => haltInstr .stackOverflow (.call nnn) s
  | some t => .next (t.withPc (zextAddr nnn))

/-- BNNN, JP V0, addr (R146). -/
def execJpV0 (nnn : Addr12) (s : State) : Result := .next (s.withPc (zextByte (s.reg 0) + zextAddr nnn))

end Sys2Proof.Machine
end

