-- ==== Sys2Proof/Machine/IndexMemory.lean ====
section
/-! DEFINITION. The index register and memory (spec 44_index_memory). I is not changed by any load or store (R190); an
access out of range halts before anything changes. -/

namespace Sys2Proof.Machine

/-- ANNN, LD I, addr (R191). -/
def execLdI (nnn : Addr12) (s : State) : Result := .next (s.withI (zextAddr nnn))

/-- FX1E, ADD I, Vx: the sum wraps at 16 bits, no flag (R192). -/
def execAddI (x : RegIdx) (s : State) : Result := .next (s.withI (s.I + zextByte (s.reg x)))

/-- FX29, LD F, Vx (R194). -/
def execLdF (x : RegIdx) (s : State) : Result := .next (s.withI (glyphAddr s.cfg (s.reg x)))

/-- FX33, LD B, Vx: the decimal digits at I, I + 1, I + 2 (R196). -/
def execLdB (x : RegIdx) (s : State) : Result :=
  match s.memWriteBytes s.dataBase (bcdDigits (s.reg x)) with
  | none => haltInstr .memRange (.ldB x) s
  | some t => .next t

/-- FX55, LD [I], Vx: V[0] to V[last] at I, I + 1, ... (R198). -/
def execStoreRegs (x : RegIdx) (s : State) : Result :=
  match s.memWriteBytes s.dataBase (s.firstRegs (blockLast s.cfg x)) with
  | none => haltInstr .memRange (.storeRegs x) s
  | some t => .next t

/-- FX65, LD Vx, [I]: V[0] to V[last] from I, I + 1, ... (R200). -/
def execLoadRegs (x : RegIdx) (s : State) : Result :=
  match s.memReadBytes s.dataBase ((blockLast s.cfg x).toNat + 1) with
  | none => haltInstr .memRange (.loadRegs x) s
  | some bs => .next (s.withV (writeRegs s.V 0 bs))

end Sys2Proof.Machine
end

