-- ==== Sys2Proof/Machine/KeysTimers.lean ====
section
/-! DEFINITION. Keypad and timers (spec 46_keys_timers; logs 16, 17, 23). -/

namespace Sys2Proof.Machine

/-- EX9E, SKP Vx: one `KeyDown` read (R232, R235). -/
def execSkp (x : RegIdx) (s : State) : Result := .next (s.afterKeyDown.skipIf (s.keyDownAnswer (keyOf (s.reg x))))

/-- EXA1, SKNP Vx: one `KeyDown` read (R233, R235). -/
def execSknp (x : RegIdx) (s : State) : Result :=
  .next (s.afterKeyDown.skipIf (!s.keyDownAnswer (keyOf (s.reg x))))

/-- FX07, LD Vx, DT: no read of the clock (R236). -/
def execLdVxDT (x : RegIdx) (s : State) : Result := .next (s.setReg x s.DT.count)

/-- FX0A, LD Vx, K: one `KeyWait` read; with no key reported pc goes back to this instruction (R234). -/
def execLdVxK (x : RegIdx) (s : State) : Result :=
  .next (match s.keyWaitAnswer with
    | none => s.afterKeyWait.retreat
    | some k => s.afterKeyWait.setReg x (zextKey k))

/-- FX15, LD DT, Vx (R237). -/
def execLdDTVx (x : RegIdx) (s : State) : Result := .next (s.timerSetDT (s.reg x))

/-- FX18, LD ST, Vx (R238). -/
def execLdSTVx (x : RegIdx) (s : State) : Result := .next (s.timerSetST (s.reg x))

end Sys2Proof.Machine
end

