-- ==== Sys2Proof/Machine/Step.lean ====
section
/-! DEFINITION. One step, one pass of the run loop (spec 40_step_cycle R120). -/

namespace Sys2Proof.Machine

/-- Quit check, pc range check, fetch, advance, execute, decay (R120). A halted machine has no step: the stuck state
of R127 (log 1). -/
def step (s : State) : Host.Outcome State Fault Refusal :=
  match s.run with
  | .halted => .fault .halted
  | .running =>
    match fetchPhase s with
    | .halt t => .next t
    | .word w t =>
      match decodeWord w with
      | none => .next (decodeHalt w t)
      | some i => afterExecute (exec i t.advance)

/-- `s` with the 16-bit word of the opcode table placed where the next step fetches: its two bytes at pc and pc + 1,
the image long enough to hold them, and the quit line answering no once. It stands for the load of a program that
begins with this word (spec 70_reset_and_hazards R300; log 10). -/
def State.withFetchWord (s : State) (nbits w : Nat) : State :=
  let v := w % 2 ^ nbits
  let a := s.pc.toNat
  let t := (s.writeByte (a % memSize) (BitVec.ofNat 8 (v / 256))).writeByte ((a + 1) % memSize) (BitVec.ofNat 8 v)
  { t with
    imageSize := max s.imageSize (a + instrBytes - loadBase)
    env := { s.env with quit := { s.env.quit with pending := false :: s.env.quit.pending } } }

end Sys2Proof.Machine
end

