-- ==== Sys2Proof/Machine/Load.lean ====
section
/-! DEFINITION. Reset with any image and any parameters (spec 70_reset_and_hazards R300 to R302). -/

namespace Sys2Proof.Machine

/-- `mem[base + k] <- bytes[k]` for every byte. -/
def Memory.load (d : Nat → Byte) (m : List Host.Cell) (base : Nat) : List Byte → List Host.Cell
  | [] => m
  | b :: bs => Memory.load d (Memory.write d m base b) (base + 1) bs

/-- The machine created, with no image in it yet. -/
def State.created (c : Config) : State :=
  { State.reset with cfg := c, stack := List.replicate c.stackCapacity 0 }

/-- `Reset(image, image_len)` (spec 70_reset_and_hazards R300): an image of more than `MAX_IMAGE` bytes leaves the
machine HALTED with IMAGE_TOO_LARGE and no byte copied (R301). -/
def resetWith (c : Config) (image : List Byte) : State :=
  if image.length ≤ maxImage then
    { State.created c with mem := Memory.load (unlisted c) [] loadBase image, imageSize := image.length }
  else { State.created c with run := .halted, haltCause := .imageTooLarge }

end Sys2Proof.Machine
end

