-- ==== Sys2Proof/Safety.lean ====
section
/-! DEFINITION. The terms the statements use: what a state leaves unchanged of another (frames), the invariants of
every run, and the tables of spec 10_state and 60_exceptions that say who may write what and who halts how. -/

namespace Sys2Proof.Machine

/-! ## Frames -/

/-- The pieces of the state a frame speaks of. `stack` is the entries with the depth, `halt` is `run` with the halt
record, `fixed` is the parameters with `image_size`. -/
inductive Piece where
  | V | I | pc | mem | stack | DT | ST | fb | halt | fixed | env | outputs
  deriving DecidableEq, Repr

/-- A piece is the same in both states; memory is compared byte by byte. -/
def unchanged (s t : State) : Piece → Prop
  | .V => ∀ r, t.reg r = s.reg r
  | .I => t.I = s.I
  | .pc => t.pc = s.pc
  | .mem => ∀ a, t.readByte a = s.readByte a
  | .stack => t.stack = s.stack ∧ t.sp = s.sp
  | .DT => t.DT = s.DT
  | .ST => t.ST = s.ST
  | .fb => t.fb = s.fb
  | .halt => t.run = s.run ∧ t.haltCause = s.haltCause ∧ t.haltOpcode = s.haltOpcode ∧ t.haltAddr = s.haltAddr
  | .fixed => t.cfg = s.cfg ∧ t.imageSize = s.imageSize
  | .env => t.env = s.env
  | .outputs => t.outputs = s.outputs

/-- Every piece but the listed ones is the same in both states. -/
def frame (changed : List Piece) (s t : State) : Prop := ∀ p, p ∉ changed → unchanged s t p

/-- Every general register but the listed ones is the same in both states. -/
def sameRegsExcept (xs : List RegIdx) (s t : State) : Prop := ∀ r, r ∉ xs → t.reg r = s.reg r

/-- The byte an unbounded address reads, for an address that resolves (spec 20_memory R64). -/
def byteAt (s : State) (addr : Nat) : Byte := (s.memRead addr).getD 0

/-- Every address of `addr .. addr + n - 1` resolves: under `fault` none exceeds 4095, under `wrap` always
(spec 20_memory R66). -/
def blockInRange (c : Config) (addr n : Nat) : Prop := c.oobPolicy = .wrap ∨ addr + n ≤ memSize ∨ n = 0

/-! ## Invariants of every run -/

/-- The stack array has its capacity and `sp` is within it; every entry in use was pc after a fetch (spec 10_state R28,
R31); pc never exceeds 4350 (R27); the image fits (R35). -/
def ControlInv (s : State) : Prop :=
  s.stack.length = s.cfg.stackCapacity ∧ s.sp ≤ s.cfg.stackCapacity ∧ s.imageSize ≤ maxImage
    ∧ s.pc.toNat ≤ 4350
    ∧ ∀ k, k < s.sp → loadBase + 2 ≤ (s.stack.getD k 0).toNat ∧ (s.stack.getD k 0).toNat ≤ 4098

/-- Memory keeps its canonical form. -/
def MemoryInv (s : State) : Prop := Memory.wf (unlisted s.cfg) s.mem

/-- The reference of a timer is not after the clock, and less than a tick is left over while it runs (spec 10_state
R32, 60_exceptions R281). -/
def TimerOk (tick clock : Nat) (T : Timer) : Prop := T.ref ≤ clock ∧ (T.count ≠ 0 → T.acc < tick)

/-- Both timers are so. -/
def TimerInv (s : State) : Prop :=
  TimerOk s.cfg.tickUs s.env.clock s.DT ∧ TimerOk s.cfg.tickUs s.env.clock s.ST

/-- While RUNNING the halt record is NONE, 0x0000, 0x0000; a HALTED machine has a cause (spec 10_state R36). -/
def HaltInv (s : State) : Prop :=
  (s.run = .running → s.haltCause = .none ∧ s.haltOpcode = 0 ∧ s.haltAddr = 0)
    ∧ (s.run = .halted → s.haltCause ≠ .none)

/-! ## Who may write what, who halts how -/

/-- The pieces the rule of an instruction names as written, besides the halt (spec 41_flow to 46_keys_timers;
40_step_cycle R130; the read of an input port writes `env`). -/
def mayWrite : Instr → List Piece
  | .cls => [.fb, .outputs]
  | .ret | .call _ => [.pc, .stack]
  | .jp _ | .jpV0 _ => [.pc]
  | .seByte _ _ | .sneByte _ _ | .seReg _ _ | .sneReg _ _ => [.pc]
  | .ldByte _ _ | .addByte _ _ | .ldReg _ _ | .orReg _ _ | .andReg _ _ | .xorReg _ _ => [.V]
  | .addReg _ _ | .subReg _ _ | .shr _ _ | .subnReg _ _ | .shl _ _ => [.V]
  | .rnd _ _ => [.V, .env]
  | .ldI _ | .addI _ | .ldF _ => [.I]
  | .drw _ _ _ => [.V, .fb, .outputs]
  | .skp _ | .sknp _ => [.pc, .env]
  | .ldVxDT _ => [.V]
  | .ldVxK _ => [.V, .pc, .env]
  | .ldDTVx _ => [.DT, .env]
  | .ldSTVx _ => [.ST, .env]
  | .ldB _ | .storeRegs _ => [.mem]
  | .loadRegs _ => [.V]

/-- The one cause an instruction can raise (spec 60_exceptions R261, R267). -/
def ownCause : Instr → HaltCause
  | .ret => .stackUnderflow
  | .call _ => .stackOverflow
  | .drw _ _ _ | .ldB _ | .storeRegs _ | .loadRegs _ => .memRange
  | .cls | .jp _ | .jpV0 _ | .seByte _ _ | .sneByte _ _ | .seReg _ _ | .sneReg _ _ => .none
  | .ldByte _ _ | .addByte _ _ | .ldReg _ _ | .orReg _ _ | .andReg _ _ | .xorReg _ _ => .none
  | .addReg _ _ | .subReg _ _ | .shr _ _ | .subnReg _ _ | .shl _ _ | .rnd _ _ => .none
  | .ldI _ | .addI _ | .ldF _ | .skp _ | .sknp _ => .none
  | .ldVxDT _ | .ldVxK _ | .ldDTVx _ | .ldSTVx _ => .none

/-- The instruction the next step would execute: the word at pc, decoded. -/
def State.nextInstr (s : State) : Option Instr := s.fetchWord.bind decodeWord

/-- The cause a step that halts reports: the first condition that holds (spec 60_exceptions R267). -/
def causeByPriority (s : State) : HaltCause :=
  if s.quitAnswer then .quit
  else if s.pcInRange then
    match s.fetchWord with
    | none => .memRange
    | some w =>
      match decodeWord w with
      | none => .decode
      | some i => ownCause i
  else .pcRange

/-- The halt record of a state, with pc where the halt leaves it. -/
def haltedAt (t : State) (cause : HaltCause) (opcode addr : Word) : Prop :=
  t.run = .halted ∧ t.haltCause = cause ∧ t.haltOpcode = opcode ∧ t.haltAddr = addr ∧ t.pc = addr

end Sys2Proof.Machine
end

