-- ==== Sys2Proof/Certificates/Slice0/Obligations.lean ====
section
/-! DEFINITION. The statements for the provers. Each formalises numbered rules of spec/; `exec i s` is the execute phase,
whose state `s` has pc already advanced (spec 40_step_cycle R124). -/

open Sys2Proof Sys2Proof.Machine

/-! ## Helper definitions of the statements -/

/-- Push every address of a list, the first one first. -/
def Sys2Proof.Machine.State.pushAll (s : State) : List Word → Option State
  | [] => some s
  | a :: as => match s.push a with
    | none => none
    | some t => t.pushAll as

/-- Pop `n` addresses; the first popped stands first. -/
def Sys2Proof.Machine.State.popAll (s : State) : Nat → Option (List Word × State)
  | 0 => some ([], s)
  | n + 1 => match s.pop with
    | none => none
    | some (a, t) => match t.popAll n with
      | none => none
      | some (as, u) => some (a :: as, u)

/-- The sprite bit that DXYN with `n` rows puts on the pixel in row `r` and column `c`: row `r - y0` of the sprite, its
bit 7 leftmost; false where the sprite does not reach (spec 45_display R214). -/
def Sys2Proof.Machine.spriteBit (s : State) (x0 y0 n r c : Nat) : Bool :=
  decide (y0 ≤ r) && decide (r < y0 + n) && decide (x0 ≤ c) && decide (c < x0 + 8)
    && (byteAt s (s.dataBase + (r - y0))).getLsbD (7 - (c - x0))

/-- The sprite bit of DXYN on a pixel, with the start position of spec 45_display R214. -/
def Sys2Proof.Machine.drwBit (s : State) (x y : RegIdx) (n : Nibble) (r c : Nat) : Bool :=
  spriteBit s ((s.reg x).toNat % 64) ((s.reg y).toNat % 32) n.toNat r c

/-- How many times a step of the machine reads the clock when it does not halt (spec 60_exceptions R284). -/
def Sys2Proof.Machine.clockReads (i : Instr) : Nat :=
  match i with
  | .ldDTVx _ | .ldSTVx _ => 3
  | _ => 2

/-- pc after instruction `i` at `s.pc` has run and gone on, in terms of the state at the start of the step (spec
10_state R27): the target as the rule computes it, unchecked, else the address of the instruction that follows. -/
def Sys2Proof.Machine.nextPc (s : State) : Instr → Word
  | .jp nnn | .call nnn => BitVec.ofNat 16 nnn.toNat
  | .jpV0 nnn => BitVec.ofNat 16 ((s.reg 0).toNat + nnn.toNat)
  | .ret => s.stack.getD (s.sp - 1) 0
  | .seByte x nn => if s.reg x = nn then s.pc + 4 else s.pc + 2
  | .sneByte x nn => if s.reg x ≠ nn then s.pc + 4 else s.pc + 2
  | .seReg x y => if s.reg x = s.reg y then s.pc + 4 else s.pc + 2
  | .sneReg x y => if s.reg x ≠ s.reg y then s.pc + 4 else s.pc + 2
  | .skp x => if s.keyDownAnswer (keyOf (s.reg x)) = true then s.pc + 4 else s.pc + 2
  | .sknp x => if s.keyDownAnswer (keyOf (s.reg x)) = false then s.pc + 4 else s.pc + 2
  | .ldVxK _ => if s.keyWaitAnswer = none then s.pc else s.pc + 2
  | .cls | .drw _ _ _ | .rnd _ _ | .ldByte _ _ | .addByte _ _ | .ldReg _ _ => s.pc + 2
  | .orReg _ _ | .andReg _ _ | .xorReg _ _ | .addReg _ _ | .subReg _ _ | .subnReg _ _ | .shr _ _ | .shl _ _ => s.pc + 2
  | .ldI _ | .addI _ | .ldF _ | .ldB _ | .storeRegs _ | .loadRegs _ => s.pc + 2
  | .ldVxDT _ | .ldDTVx _ | .ldSTVx _ => s.pc + 2

/-- The instruction does not meet its own halt condition (spec 60_exceptions R261): room on the stack for 2NNN, a used
entry for 00EE, every byte in range for DXYN, FX33, FX55 and FX65. -/
def Sys2Proof.Machine.goesOn (s : State) : Instr → Prop
  | .call _ => s.sp < s.cfg.stackCapacity
  | .ret => s.sp ≠ 0
  | .drw _ _ n => blockInRange s.cfg s.dataBase n.toNat
  | .ldB _ => blockInRange s.cfg s.dataBase 3
  | .storeRegs x | .loadRegs x => blockInRange s.cfg s.dataBase ((blockLast s.cfg x).toNat + 1)
  | .jp _ | .jpV0 _ | .seByte _ _ | .sneByte _ _ | .seReg _ _ | .sneReg _ _ | .skp _ | .sknp _ | .ldVxK _ => True
  | .cls | .rnd _ _ | .ldByte _ _ | .addByte _ _ | .ldReg _ _ | .orReg _ _ | .andReg _ _ | .xorReg _ _ => True
  | .addReg _ _ | .subReg _ _ | .subnReg _ _ | .shr _ _ | .shl _ _ | .ldI _ | .addI _ | .ldF _ => True
  | .ldVxDT _ | .ldDTVx _ | .ldSTVx _ => True

/-! ## Encoding -/

/-- Every well-formed instruction, encoded and decoded again, is itself, and the bytes after it are left over
(spec 30_encoding R90 to R96). -/
def Obligations.DecodeAfterEncode : Prop :=
  ∀ (i : Instr) (rest : List Byte), i.wellFormed = true → decode (encodeBytes i ++ rest) = .ok (i, rest)

/-- Every legal word is the word of the instruction it decodes to: no bit of a word is lost, ignored fields among them
(spec 30_encoding R96, R98). -/
def Obligations.EncodeAfterDecode : Prop :=
  ∀ (w : Word) (i : Instr), decodeWord w = some i → encode i = w

/-- A word selects a row of the opcode map when its masked bits are the row's match, the decoder then gives an
instruction of that row, and no word selects two rows (spec 30_encoding R96; strict decoding is the spec's own decision
D6, log 20). -/
def Obligations.DecodeFollowsOpcodeMap : Prop :=
  ∀ w : Word,
    (∀ r ∈ opRows, w &&& r.mask = r.pat ↔ ∃ i, decodeWord w = some i ∧ i.opRow = r)
      ∧ ∀ r ∈ opRows, ∀ q ∈ opRows, w &&& r.mask = r.pat → w &&& q.mask = q.pat → r = q

/-- The fields of a word as numbers (spec 30_encoding R92; the bit positions are the spec's inference from the
patterns). -/
def Obligations.FieldsAreBitPositions : Prop :=
  ∀ w : Word,
    (fieldOP w).toNat = w.toNat / 4096
      ∧ (fieldX w).toNat = w.toNat / 256 % 16
      ∧ (fieldY w).toNat = w.toNat / 16 % 16
      ∧ (fieldN w).toNat = w.toNat % 16
      ∧ (fieldNN w).toNat = w.toNat % 256
      ∧ (fieldNNN w).toNat = w.toNat % 4096

/-- A few words written out from the patterns of spec 30_encoding R96 decode to the instructions they stand for. -/
def Obligations.SampleWordsDecode : Prop :=
  decodeTableWord 16 0x00E0 = some .cls
    ∧ decodeTableWord 16 0x1208 = some (.jp 0x208)
    ∧ decodeTableWord 16 0x332A = some (.seByte 3 0x2A)
    ∧ decodeTableWord 16 0x8127 = some (.subnReg 1 2)
    ∧ decodeTableWord 16 0xA2F0 = some (.ldI 0x2F0)
    ∧ decodeTableWord 16 0xD12F = some (.drw 1 2 0xF)
    ∧ decodeTableWord 16 0xE1A1 = some (.sknp 1)
    ∧ decodeTableWord 16 0xF165 = some (.loadRegs 1)
    ∧ decodeTableWord 16 0x5121 = none

/-- The illegal words are the table of spec 30_encoding R100, and executing one halts with DECODE, the word and its
address recorded, in the step that fetched it (strict decoding is the spec's own decision D6, log 20; what the halt
leaves and records D10 and D11, log 21). -/
def Obligations.IllegalWordsHaltDecode : Prop :=
  (∀ w : Word, decodeWord w = none ↔ illegalWord w = true)
    ∧ ∀ (s : State) (w : Word), s.run = .running → s.quitAnswer = false → s.pcInRange = true →
        s.fetchWord = some w → illegalWord w = true →
        ∃ t, step s = .next t ∧ haltedAt t .decode w s.pc ∧ frame [.halt, .env] s t

/-! ## Memory -/

/-- Which byte an address names: itself up to 4095; above that none under `fault`, which is where an access halts, and
the address modulo 4096 under `wrap` (spec 20_memory R66; both policies are the spec's own decision D5, log 7). Data
accesses start at I, as an unbounded integer (spec 44_index_memory R190). `MemRead(addr, 1)` reads the byte named (R64);
`MemWrite(addr, 1, v)` changes exactly that byte and has no other effect (R65); where no byte is named, neither
happens. -/
def Obligations.AddressesAndByteAccesses : Prop :=
  ∀ (s : State) (addr : Nat) (v : Byte),
    (addr ≤ 4095 → resolve s.cfg addr = some addr)
      ∧ (4095 < addr → s.cfg.oobPolicy = .fault → resolve s.cfg addr = none)
      ∧ (4095 < addr → s.cfg.oobPolicy = .wrap → resolve s.cfg addr = some (addr % 4096))
      ∧ s.dataBase = s.I.toNat
      ∧ (∀ a, resolve s.cfg addr = some a → s.memRead addr = some (s.readByte a)
          ∧ ∃ t, s.memWrite addr v = some t ∧ t.readByte a = v ∧ (∀ b, b ≠ a → t.readByte b = s.readByte b)
            ∧ frame [.mem] s t)
      ∧ (resolve s.cfg addr = none → s.memRead addr = none ∧ s.memWrite addr v = none)

/-- Memories in canonical form that read the same everywhere are the same data (a property of the model's own
representation, log 13). -/
def Obligations.CanonicalMemoriesAreEqual : Prop :=
  ∀ (d : Nat → Byte) (m n : List Host.Cell), Memory.wf d m → Memory.wf d n →
    (∀ a, Memory.read d m a = Memory.read d n a) → m = n

/-! ## The step -/

/-- A running machine with no quit request and pc in range, whose two bytes at pc (the one at pc the high one) decode to
`i`, executes `i` in the state whose pc is advanced by 2 and whose quit line was read once; then, unless the instruction
halted, the delay timer and the sound timer decay (spec 40_step_cycle R120, R123 to R126; the delay timer first is the
spec's own decision D25). -/
def Obligations.StepRunsDecodedInstruction : Prop :=
  ∀ (s : State) (hi lo : Byte) (i : Instr), s.run = .running → s.quitAnswer = false → s.pcInRange = true →
    s.memRead s.pc.toNat = some hi → s.memRead (s.pc.toNat + 1) = some lo → decode [hi, lo] = .ok (i, []) →
    step s = afterExecute (exec i s.afterQuit.advance)
      ∧ (∀ t, exec i s.afterQuit.advance = .next t → t.run = .running → step s = .next t.timerDecayDT.timerDecayST)
      ∧ (∀ t, exec i s.afterQuit.advance = .next t → t.run = .halted → step s = .next t)
      ∧ s.afterQuit.advance.pc = s.pc + 2 ∧ frame [.pc, .env] s s.afterQuit.advance

/-- A quit request halts with QUIT before anything else is looked at: no fetch, no decay (spec 40_step_cycle R121; the
halt record is the spec's own decisions D10 and D31, log 21). -/
def Obligations.QuitRequestHalts : Prop :=
  ∀ s : State, s.run = .running → s.quitAnswer = true →
    ∃ t, step s = .next t ∧ haltedAt t .quit 0 s.pc ∧ frame [.halt, .env] s t ∧ t.env = s.afterQuit.env

/-- With no quit request, a pc below 512 or above 512 + image_size halts with PC_RANGE and pc recorded, and a pc within,
both ends included, never does (spec 40_step_cycle R122; the closed upper end is the spec's own decision D20,
log 22, the halt record D10 and D31, log 21). -/
def Obligations.PcRangeCheck : Prop :=
  ∀ s : State, s.run = .running → s.haltCause = .none → s.quitAnswer = false →
    ((s.pc.toNat < 512 ∨ 512 + s.imageSize < s.pc.toNat) →
        ∃ t, step s = .next t ∧ haltedAt t .pcRange 0 s.pc ∧ frame [.halt, .env] s t)
      ∧ ((512 ≤ s.pc.toNat ∧ s.pc.toNat ≤ 512 + s.imageSize) →
        ∀ t, step s = .next t → t.haltCause ≠ .pcRange)

/-- A fetch whose second byte lies beyond address 4095 halts with MEM_RANGE under `fault`, no word recorded, and reads
the word at the wrapped addresses under `wrap` (spec 40_step_cycle R123, 20_memory R66; both policies are the spec's own
decision D5, log 7, the halt record D10 and D31, log 21). -/
def Obligations.FetchBeyondMemory : Prop :=
  ∀ s : State, s.run = .running → s.quitAnswer = false → s.pcInRange = true → 4095 < s.pc.toNat + 1 →
    (s.cfg.oobPolicy = .fault →
        ∃ t, step s = .next t ∧ haltedAt t .memRange 0 s.pc ∧ frame [.halt, .env] s t)
      ∧ (s.cfg.oobPolicy = .wrap →
        s.fetchWord = some (joinBytes (s.readByte (s.pc.toNat % 4096)) (s.readByte ((s.pc.toNat + 1) % 4096))))

/-- A halted machine has no step (spec 40_step_cycle R127). -/
def Obligations.HaltedMachineHasNoStep : Prop :=
  ∀ s : State, s.run = .halted → step s = .fault .halted

/-- A running machine always has a step, and a quit request is honoured by it (spec 70_reset_and_hazards R321). -/
def Obligations.RunningMachineAlwaysSteps : Prop :=
  ∀ s : State, s.run = .running →
    ∃ t, step s = .next t ∧ (s.quitAnswer = true → t.run = .halted ∧ t.haltCause = .quit)

/-- A halting step commits nothing: V, I, pc, sp, the stack, memory, the frame buffer and both timers are as before the
step, no output is emitted and the clock is not read (spec 60_exceptions R266, the spec's own decision D11, log 21). -/
def Obligations.HaltingStepCommitsNothing : Prop :=
  ∀ s t : State, s.run = .running → step s = .next t → t.run = .halted →
    frame [.halt, .env] s t ∧ t.mem = s.mem ∧ t.env.clock = s.env.clock ∧ t.env.elapsed = s.env.elapsed

/-- What a halt records: the pc at the start of the step, and the word the step fetched for the causes of the execute
phase, 0x0000 where no word was fetched (spec 60_exceptions R265, the spec's own decisions D10 and D31, log 21); the
code of the cause (R261, decision D10, log 15) and whether it is of class success or failure (R262; that MEM_RANGE is of
class failure is decision D21, log 15). IMAGE_TOO_LARGE is the cause a reset reports (the state it leaves
is decision D28), and NONE is what it leaves else. -/
def Obligations.HaltRecordsCauseWordAndAddress : Prop :=
  (∀ s t : State, s.run = .running → step s = .next t → t.run = .halted →
    t.haltAddr = s.pc ∧ t.pc = s.pc
      ∧ (t.haltCause = .quit ∨ t.haltCause = .pcRange → t.haltOpcode = 0)
      ∧ (t.haltCause = .decode ∨ t.haltCause = .stackOverflow ∨ t.haltCause = .stackUnderflow →
          s.fetchWord = some t.haltOpcode)
      ∧ (t.haltCause = .memRange →
          (s.fetchWord = none ∧ t.haltOpcode = 0) ∨ s.fetchWord = some t.haltOpcode)
      ∧ (t.haltCause.code = 1 ↔ t.haltCause = .quit) ∧ (t.haltCause.code = 2 ↔ t.haltCause = .pcRange)
      ∧ (t.haltCause.code = 3 ↔ t.haltCause = .decode) ∧ (t.haltCause.code = 4 ↔ t.haltCause = .stackOverflow)
      ∧ (t.haltCause.code = 5 ↔ t.haltCause = .stackUnderflow) ∧ (t.haltCause.code = 6 ↔ t.haltCause = .memRange)
      ∧ (t.haltCause.exitClass = some .success ↔ t.haltCause = .quit ∨ t.haltCause = .pcRange)
      ∧ (t.haltCause.exitClass = some .failure ↔ t.haltCause = .decode ∨ t.haltCause = .stackOverflow
          ∨ t.haltCause = .stackUnderflow ∨ t.haltCause = .memRange))
    ∧ ∀ (c : Config) (image : List Byte),
      (3584 < image.length → (resetWith c image).haltCause = .imageTooLarge
          ∧ (resetWith c image).haltCause.code = 7 ∧ (resetWith c image).haltCause.exitClass = some .failure)
        ∧ (image.length ≤ 3584 → (resetWith c image).haltCause = .none ∧ (resetWith c image).haltCause.code = 0)

/-- The cause a halting step reports is the first condition that holds of QUIT, PC_RANGE, MEM_RANGE on the fetch, DECODE
and the instruction's own cause (spec 60_exceptions R267); in particular an instruction with no cause of its own never
halts. -/
def Obligations.HaltCauseByPriority : Prop :=
  ∀ s t : State, s.run = .running → step s = .next t → t.run = .halted →
    t.haltCause = causeByPriority s ∧ t.haltCause ≠ .none ∧ t.haltCause ≠ .imageTooLarge

/-! ## Invariants and rules of the whole machine -/

/-- Every step keeps: the stack within its capacity, every entry in use a value pc held right after a fetch (514 to
4098), pc at most 4350, the image within the memory (spec 10_state R27, R28, R31, R35). -/
def Obligations.StepKeepsControlInv : Prop :=
  ∀ s t : State, ControlInv s → step s = .next t → ControlInv t

/-- Every step keeps the canonical form of memory (the model's representation, log 13). -/
def Obligations.StepKeepsMemoryInv : Prop :=
  ∀ s t : State, MemoryInv s → step s = .next t → MemoryInv t

/-- Every step keeps: no timer's reference is after the clock, and less than a tick is left over while a timer runs
(spec 10_state R32, 60_exceptions R281). -/
def Obligations.StepKeepsTimerInv : Prop :=
  ∀ s t : State, TimerInv s → step s = .next t → TimerInv t

/-- Every step keeps: the halt record is NONE, 0x0000, 0x0000 exactly while the machine runs (spec 10_state R36). -/
def Obligations.StepKeepsHaltInv : Prop :=
  ∀ s t : State, HaltInv s → step s = .next t → HaltInv t

/-- The four invariants hold after the reset with any image and any parameters. -/
def Obligations.InvariantsHoldAtReset : Prop :=
  (ControlInv State.reset ∧ MemoryInv State.reset ∧ TimerInv State.reset ∧ HaltInv State.reset)
    ∧ ∀ (c : Config) (image : List Byte),
        ControlInv (resetWith c image) ∧ MemoryInv (resetWith c image) ∧ TimerInv (resetWith c image)
          ∧ HaltInv (resetWith c image)

/-- No step changes `image_size` or a parameter (spec 10_state R35, 00_scope R13). -/
def Obligations.ParametersNeverChange : Prop :=
  ∀ s t : State, step s = .next t → t.cfg = s.cfg ∧ t.imageSize = s.imageSize

/-- A step reads the quit line once, and the clock not at all if it halts, else once for each decay and once more for
FX15 and FX18; the clock never goes back (spec 40_step_cycle R121, 60_exceptions R284). -/
def Obligations.PortReadsPerStep : Prop :=
  ∀ s t : State, s.run = .running → step s = .next t →
    t.env.quit.reads = s.env.quit.reads + 1
      ∧ s.env.clock ≤ t.env.clock
      ∧ (t.run = .halted → t.env.elapsed.reads = s.env.elapsed.reads)
      ∧ (t.run = .running → ∃ i, s.nextInstr = some i ∧ t.env.elapsed.reads = s.env.elapsed.reads + clockReads i)

/-- A step changes I only by ANNN, FX1E or FX29 (spec 10_state R25, the spec's own decision D8). -/
def Obligations.IndexRegisterWriters : Prop :=
  ∀ s t : State, step s = .next t → t.I ≠ s.I →
    ∃ i, s.nextInstr = some i ∧ ((∃ n, i = .ldI n) ∨ (∃ x, i = .addI x) ∨ (∃ x, i = .ldF x))

/-- A step changes the frame buffer only by 00E0 or DXYN (spec 10_state R34). -/
def Obligations.FrameBufferWriters : Prop :=
  ∀ s t : State, step s = .next t → t.fb ≠ s.fb →
    ∃ i, s.nextInstr = some i ∧ (i = .cls ∨ ∃ x y n, i = .drw x y n)

/-- A step changes memory only by FX33 or FX55 (spec 20_memory R63). -/
def Obligations.MemoryWriters : Prop :=
  ∀ s t : State, step s = .next t → t.mem ≠ s.mem →
    ∃ i, s.nextInstr = some i ∧ ((∃ x, i = .ldB x) ∨ ∃ x, i = .storeRegs x)

/-- A step changes the stack only by 2NNN or its depth only by 2NNN or 00EE (spec 10_state R31). -/
def Obligations.StackWriters : Prop :=
  ∀ s t : State, step s = .next t → (t.stack ≠ s.stack → ∃ n, s.nextInstr = some (.call n))
    ∧ (t.sp ≠ s.sp → s.nextInstr = some .ret ∨ ∃ n, s.nextInstr = some (.call n))

/-- A timer's count never increases in a step except by its own set instruction (spec 10_state R33,
60_exceptions R283 (a)). -/
def Obligations.TimerCountsNeverIncrease : Prop :=
  ∀ s t : State, step s = .next t →
    ((∀ x, s.nextInstr ≠ some (.ldDTVx x)) → t.DT.count ≤ s.DT.count)
      ∧ ((∀ x, s.nextInstr ≠ some (.ldSTVx x)) → t.ST.count ≤ s.ST.count)

/-- After a set at `t0`, the count seen after a decay at time `t` is `v - min(v, floor((t - t0) / TICK_US))`, however
many decays were made in between (spec 60_exceptions R283 (b), which the spec infers from R280 and R281). -/
def Obligations.TimerCountAfterDecays : Prop :=
  ∀ (tick : Nat) (v : Byte) (t0 : Nat) (between : List Nat) (t : Nat), 0 < tick →
    (t0 :: (between ++ [t])).Pairwise (· ≤ ·) →
    ((between ++ [t]).foldl (fun T u => T.decay tick u) (Timer.set v t0)).count.toNat
      = v.toNat - min v.toNat ((t - t0) / tick)

/-- One decay: as many decrements as whole ticks have accumulated but never below zero, the rest stays accumulated, and
the reference is renewed; a timer at zero stays there with nothing accumulated (spec 60_exceptions R281, R282; the
last is the spec's own decision D16). -/
def Obligations.DecayTakesWholeTicks : Prop :=
  ∀ (tick t : Nat) (T : Timer), 0 < tick → T.ref ≤ t →
    (T.count = 0 → T.decay tick t = ⟨0, 0, t⟩)
      ∧ (T.count ≠ 0 →
        (T.decay tick t).count.toNat = T.count.toNat - min T.count.toNat ((T.acc + (t - T.ref)) / tick)
          ∧ (T.decay tick t).acc
              = T.acc + (t - T.ref) - tick * min T.count.toNat ((T.acc + (t - T.ref)) / tick)
          ∧ (T.decay tick t).ref = t)

/-- By kinds of state (the pieces of Sys2Proof/Safety.lean): an instruction changes only the pieces that hold something
its rule writes, unless it halts, and then only the halt record and pc, which goes back to the instruction (spec
40_step_cycle R130: state a rule does not mention is unchanged). V and memory are one piece each: which registers and
which bytes change is said by the statement of the instruction. What a halt leaves and records is the spec's own
decisions D10 and D11 (logs 11, 21). -/
def Obligations.InstructionChangesOnlyPiecesItsRuleNames : Prop :=
  ∀ (i : Instr) (s t : State), exec i s = .next t →
    frame (mayWrite i) s t ∨ (frame [.halt, .pc] s t ∧ haltedAt t (ownCause i) (encode i) (s.pc - 2))

/-! ## Control transfer -/

/-- 1NNN sets pc to NNN, BNNN to V[0] + NNN as a plain sum, and nothing else changes (spec 41_flow R142, R146). -/
def Obligations.JumpsSetPc : Prop :=
  ∀ (nnn : Addr12) (s : State),
    (∃ t, exec (.jp nnn) s = .next t ∧ t.pc.toNat = nnn.toNat ∧ frame [.pc] s t)
      ∧ ∃ t, exec (.jpV0 nnn) s = .next t ∧ t.pc.toNat = (s.reg 0).toNat + nnn.toNat ∧ frame [.pc] s t

/-- 2NNN with room on the stack pushes pc, the address after the call, and jumps, the other entries kept; at full depth it
halts with STACK_OVERFLOW, nothing pushed (spec 41_flow R144), the halt record written and pc back at the call (60_exceptions
R265, R266, the spec's own decisions D10 and D11, logs 11, 21). -/
def Obligations.CallPushesOrOverflows : Prop :=
  ∀ (nnn : Addr12) (s : State), s.stack.length = s.cfg.stackCapacity →
    (s.sp < s.cfg.stackCapacity →
        ∃ t, exec (.call nnn) s = .next t ∧ t.pc.toNat = nnn.toNat ∧ t.sp = s.sp + 1
          ∧ t.stack.getD s.sp 0 = s.pc ∧ (∀ k, k ≠ s.sp → t.stack.getD k 0 = s.stack.getD k 0)
          ∧ t.stack.length = s.stack.length ∧ frame [.pc, .stack] s t)
      ∧ (s.sp = s.cfg.stackCapacity →
        ∃ t, exec (.call nnn) s = .next t ∧ haltedAt t .stackOverflow (encode (.call nnn)) (s.pc - 2)
          ∧ frame [.halt, .pc] s t)

/-- 00EE with a used entry sets pc to the most recently pushed address and lowers the depth by one, the entries
themselves unchanged; with an empty stack it halts with STACK_UNDERFLOW (spec 41_flow R141), the halt record written and
pc back at the instruction (60_exceptions R265, R266, the spec's own decisions D10 and D11, logs 11, 21). -/
def Obligations.ReturnPopsOrUnderflows : Prop :=
  ∀ s : State,
    (s.sp ≠ 0 →
        ∃ t, exec .ret s = .next t ∧ t.pc = s.stack.getD (s.sp - 1) 0 ∧ t.sp = s.sp - 1 ∧ t.stack = s.stack
          ∧ frame [.pc, .stack] s t)
      ∧ (s.sp = 0 →
        ∃ t, exec .ret s = .next t ∧ haltedAt t .stackUnderflow (encode .ret) (s.pc - 2) ∧ frame [.halt, .pc] s t)

/-- No target is checked in the step that sets it (spec 41_flow R140, 42_skip R150, 40_step_cycle R122): whatever pc it
leaves, an instruction that does not meet its own halt condition goes on, and pc is the one of `nextPc`; if that pc is
out of the loaded image, the next step halts with PC_RANGE, unless a quit request comes first. This holds for all
instructions: the jumps 1NNN and BNNN, 2NNN, 00EE, the skips, and those that only fall off the end. The closed end of the
range is the spec's own decision D20 (log 22), the wait of FX0A D13 (log 23), the key code D12 (log 23), what the halt
leaves and records D10, D11 and D31 (log 21), and that an access out of range halts D5 (log 7). -/
def Obligations.PcOutOfImageHaltsNextStep : Prop :=
  ∀ (s : State) (i : Instr), s.run = .running → s.nextInstr = some i → s.quitAnswer = false → s.pcInRange = true →
    (goesOn s i → ∃ t, step s = .next t ∧ t.run = .running)
      ∧ ∀ t, step s = .next t → t.run = .running →
        t.pc = nextPc s i
          ∧ (t.pc.toNat < 512 ∨ 512 + s.imageSize < t.pc.toNat → t.quitAnswer = false →
            ∃ u, step t = .next u ∧ haltedAt u .pcRange 0 t.pc ∧ frame [.halt, .env] t u)

/-- Pushing addresses and popping as many gives them back in reverse order, and the depth is what it was; a push at full
depth is refused (spec 10_state R29, R30). -/
def Obligations.StackIsLastInFirstOut : Prop :=
  ∀ (s : State) (as : List Word), s.stack.length = s.cfg.stackCapacity → s.sp + as.length ≤ s.cfg.stackCapacity →
    ∃ t, s.pushAll as = some t
      ∧ (∃ u, t.popAll as.length = some (as.reverse, u) ∧ u.sp = s.sp)
      ∧ (s.sp + as.length = s.cfg.stackCapacity → ∀ a, t.push a = none)

/-! ## Skips -/

/-- 3XNN, 4XNN, 5XY0 and 9XY0 advance pc by 2 more when their condition holds, and change nothing else (spec 42_skip
R150 to R154). -/
def Obligations.SkipsAdvanceOnCondition : Prop :=
  ∀ (x y : RegIdx) (nn : Byte) (s : State),
    (∃ t, exec (.seByte x nn) s = .next t ∧ t.pc = (if s.reg x = nn then s.pc + 2 else s.pc) ∧ frame [.pc] s t)
      ∧ (∃ t, exec (.sneByte x nn) s = .next t ∧ t.pc = (if s.reg x ≠ nn then s.pc + 2 else s.pc) ∧ frame [.pc] s t)
      ∧ (∃ t, exec (.seReg x y) s = .next t ∧ t.pc = (if s.reg x = s.reg y then s.pc + 2 else s.pc)
          ∧ frame [.pc] s t)
      ∧ ∃ t, exec (.sneReg x y) s = .next t ∧ t.pc = (if s.reg x ≠ s.reg y then s.pc + 2 else s.pc)
          ∧ frame [.pc] s t

/-- EX9E and EXA1 skip on one `KeyDown` answer for the key code in the low four bits of V[X], whatever the high four bits
are (spec 46_keys_timers R232, R233; the low four bits are the spec's own decision D12). -/
def Obligations.KeySkipsUseLowNibble : Prop :=
  ∀ (x : RegIdx) (k : KeyCode) (s : State), k.toNat = (s.reg x).toNat % 16 →
    (∃ t, exec (.skp x) s = .next t ∧ t.pc = (if s.keyDownAnswer k = true then s.pc + 2 else s.pc)
        ∧ t.env = s.afterKeyDown.env ∧ frame [.pc, .env] s t)
      ∧ ∃ t, exec (.sknp x) s = .next t ∧ t.pc = (if s.keyDownAnswer k = false then s.pc + 2 else s.pc)
        ∧ t.env = s.afterKeyDown.env ∧ frame [.pc, .env] s t

/-! ## Load, arithmetic, logic, shift, random -/

/-- 6XNN loads NN and 8XY0 copies V[Y] into V[X]; nothing else changes (spec 43_alu R161, R163). -/
def Obligations.RegisterLoads : Prop :=
  ∀ (x y : RegIdx) (nn : Byte) (s : State),
    (∃ t, exec (.ldByte x nn) s = .next t ∧ t.reg x = nn ∧ sameRegsExcept [x] s t ∧ frame [.V] s t)
      ∧ ∃ t, exec (.ldReg x y) s = .next t ∧ t.reg x = s.reg y ∧ sameRegsExcept [x] s t ∧ frame [.V] s t

/-- 7XNN adds NN to V[X] modulo 256 and writes no flag under either policy (spec 43_alu R162). -/
def Obligations.AddByteWraps : Prop :=
  ∀ (x : RegIdx) (nn : Byte) (s : State),
    ∃ t, exec (.addByte x nn) s = .next t ∧ (t.reg x).toNat = ((s.reg x).toNat + nn.toNat) % 256
      ∧ sameRegsExcept [x] s t ∧ frame [.V] s t

/-- 8XY1, 8XY2 and 8XY3 are OR, AND and XOR bit by bit and never write V[0xF] as a flag (spec 43_alu R164, R165,
R166). -/
def Obligations.LogicIsBitwise : Prop :=
  ∀ (x y : RegIdx) (s : State),
    (∃ t, exec (.orReg x y) s = .next t
        ∧ (∀ b, (t.reg x).getLsbD b = ((s.reg x).getLsbD b || (s.reg y).getLsbD b))
        ∧ sameRegsExcept [x] s t ∧ frame [.V] s t)
      ∧ (∃ t, exec (.andReg x y) s = .next t
        ∧ (∀ b, (t.reg x).getLsbD b = ((s.reg x).getLsbD b && (s.reg y).getLsbD b))
        ∧ sameRegsExcept [x] s t ∧ frame [.V] s t)
      ∧ ∃ t, exec (.xorReg x y) s = .next t
        ∧ (∀ b, (t.reg x).getLsbD b = ((s.reg x).getLsbD b ^^ (s.reg y).getLsbD b))
        ∧ sameRegsExcept [x] s t ∧ frame [.V] s t

/-- 8XY4 adds modulo 256; under `canonical` V[0xF] then holds the carry, also when X = 0xF, and under `reference` no flag
is written (spec 43_alu R168; the flag and its order are the spec's own decisions D2 and D3, log 18). -/
def Obligations.AddWritesCarry : Prop :=
  ∀ (x y : RegIdx) (s : State),
    ∃ t, exec (.addReg x y) s = .next t ∧ frame [.V] s t
      ∧ (s.cfg.flagPolicy = .canonical →
          (t.reg 0xF).toNat = (if 255 < (s.reg x).toNat + (s.reg y).toNat then 1 else 0)
            ∧ (x ≠ 0xF → (t.reg x).toNat = ((s.reg x).toNat + (s.reg y).toNat) % 256)
            ∧ sameRegsExcept [x, 0xF] s t)
      ∧ (s.cfg.flagPolicy = .reference →
          (t.reg x).toNat = ((s.reg x).toNat + (s.reg y).toNat) % 256 ∧ sameRegsExcept [x] s t)

/-- 8XY5 is V[X] - V[Y] and 8XY7 is V[Y] - V[X] modulo 256, into V[X]; V[0xF] then holds 1 when there was no borrow, else
0, under both policies and also when X = 0xF (spec 43_alu R170, R174; the flag is the spec's own decision D3,
log 18). -/
def Obligations.SubtractsWriteNoBorrow : Prop :=
  ∀ (x y : RegIdx) (s : State),
    (∃ t, exec (.subReg x y) s = .next t ∧ frame [.V] s t ∧ sameRegsExcept [x, 0xF] s t
        ∧ (t.reg 0xF).toNat = (if (s.reg y).toNat ≤ (s.reg x).toNat then 1 else 0)
        ∧ (x ≠ 0xF → (t.reg x).toNat = ((s.reg x).toNat + 256 - (s.reg y).toNat) % 256))
      ∧ ∃ t, exec (.subnReg x y) s = .next t ∧ frame [.V] s t ∧ sameRegsExcept [x, 0xF] s t
        ∧ (t.reg 0xF).toNat = (if (s.reg x).toNat ≤ (s.reg y).toNat then 1 else 0)
        ∧ (x ≠ 0xF → (t.reg x).toNat = ((s.reg y).toNat + 256 - (s.reg x).toNat) % 256)

/-- 8XY6 halves and 8XYE doubles V[X] in place, Y ignored; under `canonical` V[0xF] then holds the bit shifted out, and
under `reference` no flag is written (spec 43_alu R172, R176; in place and with this flag is the spec's own decision D2,
D3, D4, log 18). -/
def Obligations.ShiftsByOne : Prop :=
  ∀ (x y : RegIdx) (s : State),
    (∃ t, exec (.shr x y) s = .next t ∧ frame [.V] s t
        ∧ (s.cfg.flagPolicy = .canonical → (t.reg 0xF).toNat = (s.reg x).toNat % 2
            ∧ (x ≠ 0xF → (t.reg x).toNat = (s.reg x).toNat / 2) ∧ sameRegsExcept [x, 0xF] s t)
        ∧ (s.cfg.flagPolicy = .reference →
            (t.reg x).toNat = (s.reg x).toNat / 2 ∧ sameRegsExcept [x] s t))
      ∧ ∃ t, exec (.shl x y) s = .next t ∧ frame [.V] s t
        ∧ (s.cfg.flagPolicy = .canonical → (t.reg 0xF).toNat = (s.reg x).toNat / 128
            ∧ (x ≠ 0xF → (t.reg x).toNat = (s.reg x).toNat * 2 % 256) ∧ sameRegsExcept [x, 0xF] s t)
        ∧ (s.cfg.flagPolicy = .reference →
            (t.reg x).toNat = (s.reg x).toNat * 2 % 256 ∧ sameRegsExcept [x] s t)

/-- CXNN puts one random byte, masked by NN, into V[X]; a bit that is 0 in NN is 0 in V[X] (spec 43_alu R178). -/
def Obligations.RandomIsMasked : Prop :=
  ∀ (x : RegIdx) (nn : Byte) (s : State),
    ∃ t, exec (.rnd x nn) s = .next t ∧ t.reg x = s.randAnswer &&& nn
      ∧ (∀ b, nn.getLsbD b = false → (t.reg x).getLsbD b = false)
      ∧ t.env = s.afterRand.env ∧ sameRegsExcept [x] s t ∧ frame [.V, .env] s t

/-! ## Index register and memory -/

/-- ANNN loads NNN, FX1E adds V[X] modulo 65536, FX29 gives FONT_BASE + 5 * V[X] with the whole byte (for parameters that
meet the constraint of spec 00_scope R6); nothing else changes, V[0xF] among it (spec 44_index_memory R191, R192,
R194; the whole byte in FX29 is the spec's own decision D26). -/
def Obligations.IndexRegisterResults : Prop :=
  ∀ (nnn : Addr12) (x : RegIdx) (s : State), s.cfg.legal = true →
    (∃ t, exec (.ldI nnn) s = .next t ∧ t.I.toNat = nnn.toNat ∧ frame [.I] s t)
      ∧ (∃ t, exec (.addI x) s = .next t ∧ t.I.toNat = (s.I.toNat + (s.reg x).toNat) % 65536 ∧ frame [.I] s t)
      ∧ ∃ t, exec (.ldF x) s = .next t ∧ t.I.toNat = s.cfg.fontBase + 5 * (s.reg x).toNat ∧ frame [.I] s t

/-- FX33 stores the hundreds, tens and ones of V[X] at I, I + 1 and I + 2 when the three addresses are in range, every
other byte and I unchanged; when one is not, under `fault`, it halts with MEM_RANGE and no byte is written (spec
44_index_memory R196). That an access out of range halts is the spec's own decision D5 (log 7), that I is unchanged D8
(log 23), that nothing is written D11, and the halt record with pc back at the instruction D10 (logs 11, 21). -/
def Obligations.BcdStoresDigits : Prop :=
  ∀ (x : RegIdx) (s : State),
    (blockInRange s.cfg s.dataBase 3 →
        ∃ t, exec (.ldB x) s = .next t ∧ frame [.mem] s t
          ∧ (∀ a, resolve s.cfg s.dataBase = some a → (t.readByte a).toNat = (s.reg x).toNat / 100)
          ∧ (∀ a, resolve s.cfg (s.dataBase + 1) = some a → (t.readByte a).toNat = (s.reg x).toNat / 10 % 10)
          ∧ (∀ a, resolve s.cfg (s.dataBase + 2) = some a → (t.readByte a).toNat = (s.reg x).toNat % 10)
          ∧ ∀ b, (∀ k, k < 3 → resolve s.cfg (s.dataBase + k) ≠ some b) → t.readByte b = s.readByte b)
      ∧ (s.cfg.oobPolicy = .fault → 4095 < s.dataBase + 2 →
        ∃ t, exec (.ldB x) s = .next t ∧ haltedAt t .memRange (encode (.ldB x)) (s.pc - 2) ∧ frame [.halt, .pc] s t)

/-- FX55 stores V[0] to V[last] at I, I + 1, ... when every address is in range, last being 15 under `all16` and X under
`through_x`; every other byte and I are unchanged (spec 44_index_memory R198; the spec's own decisions D7 and D8). -/
def Obligations.BlockStoreWritesRegisters : Prop :=
  ∀ (x : RegIdx) (s : State) (last : RegIdx),
    last = (if s.cfg.regBlock = .all16 then 15 else x) → blockInRange s.cfg s.dataBase (last.toNat + 1) →
    ∃ t, exec (.storeRegs x) s = .next t ∧ frame [.mem] s t
      ∧ (∀ (r : RegIdx) a, r.toNat ≤ last.toNat → resolve s.cfg (s.dataBase + r.toNat) = some a →
          t.readByte a = s.reg r)
      ∧ ∀ b, (∀ k, k ≤ last.toNat → resolve s.cfg (s.dataBase + k) ≠ some b) → t.readByte b = s.readByte b

/-- FX65 loads V[0] to V[last] from I, I + 1, ... when every address is in range; the other registers, I and memory are
unchanged (spec 44_index_memory R200; the spec's own decisions D7 and D8). -/
def Obligations.BlockLoadReadsRegisters : Prop :=
  ∀ (x : RegIdx) (s : State) (last : RegIdx),
    last = (if s.cfg.regBlock = .all16 then 15 else x) → blockInRange s.cfg s.dataBase (last.toNat + 1) →
    ∃ t, exec (.loadRegs x) s = .next t ∧ frame [.V] s t
      ∧ ∀ r : RegIdx, t.reg r = if r.toNat ≤ last.toNat then byteAt s (s.dataBase + r.toNat) else s.reg r

/-- Under `fault`, FX33, FX55, FX65 and DXYN with a byte beyond address 4095 halt with MEM_RANGE and change nothing (spec
44_index_memory R196, R198, R200, 45_display R214; the halt is the spec's own decisions D5, D11 and D22, its
record D10; logs 7, 11, 19, 21). -/
def Obligations.OutOfRangeDataAccessHalts : Prop :=
  ∀ (i : Instr) (n : Nat) (s : State), s.cfg.oobPolicy = .fault →
    ((∃ x, i = .ldB x ∧ n = 3)
      ∨ (∃ x, i = .storeRegs x ∧ n = (if s.cfg.regBlock = .all16 then 15 else x.toNat) + 1)
      ∨ (∃ x, i = .loadRegs x ∧ n = (if s.cfg.regBlock = .all16 then 15 else x.toNat) + 1)
      ∨ ∃ x y rows, i = .drw x y rows ∧ n = rows.toNat ∧ 1 ≤ n) →
    4095 < s.dataBase + n - 1 →
    ∃ t, exec i s = .next t ∧ haltedAt t .memRange (encode i) (s.pc - 2) ∧ frame [.halt, .pc] s t

/-- FX55 followed by FX65 with the same I restores the registers it stored (spec 44_index_memory R200). -/
def Obligations.BlockStoreThenLoadRestores : Prop :=
  ∀ (x : RegIdx) (s : State), blockInRange s.cfg s.dataBase ((blockLast s.cfg x).toNat + 1) →
    ∃ t u, exec (.storeRegs x) s = .next t ∧ exec (.loadRegs x) t = .next u
      ∧ (∀ r, u.reg r = s.reg r) ∧ u.I = s.I

/-! ## Display -/

/-- 00E0 turns every pixel off and emits one `ClearNotify()`; nothing else changes (spec 45_display R211). -/
def Obligations.ClearTurnsEveryPixelOff : Prop :=
  ∀ s : State, ∃ t, exec .cls s = .next t ∧ (∀ r c, pixel t.fb r c = false)
    ∧ t.outputs = .clearNotify :: s.outputs ∧ frame [.fb, .outputs] s t

/-- DXYN with its bytes in range: every pixel of the grid is the XOR of what it was with the sprite bit on it, V[0xF] is 1
exactly if some pixel went from on to off, else 0, and the whole frame buffer is presented; nothing else changes (spec
45_display R214; the pixel order and what is read first are the spec's own decisions D17 and D22, log 19). -/
def Obligations.DrawXorsClippedSprite : Prop :=
  ∀ (x y : RegIdx) (n : Nibble) (s : State), blockInRange s.cfg s.dataBase n.toNat →
    ∃ t, exec (.drw x y n) s = .next t
      ∧ (∀ r c, r < 32 → c < 64 → pixel t.fb r c = (pixel s.fb r c ^^ drwBit s x y n r c))
      ∧ ((∃ r c, r < 32 ∧ c < 64 ∧ pixel s.fb r c = true ∧ drwBit s x y n r c = true) → t.reg 0xF = 1)
      ∧ ((¬ ∃ r c, r < 32 ∧ c < 64 ∧ pixel s.fb r c = true ∧ drwBit s x y n r c = true) → t.reg 0xF = 0)
      ∧ t.outputs = .present t.fb :: s.outputs
      ∧ sameRegsExcept [0xF] s t ∧ frame [.V, .fb, .outputs] s t

/-- The same sprite drawn twice at the same place restores the frame buffer; from a clear buffer the first draw leaves
V[0xF] = 0 and the second V[0xF] = 1 if the sprite has a visible bit (spec 45_display R216 (d)); X and Y name no flag
register, so that the place is the same (R216 (f)); the spec infers R216 from R214. -/
def Obligations.DrawTwiceRestores : Prop :=
  ∀ (x y : RegIdx) (n : Nibble) (s : State), x ≠ 0xF → y ≠ 0xF → blockInRange s.cfg s.dataBase n.toNat →
    ∃ t u, exec (.drw x y n) s = .next t ∧ exec (.drw x y n) t = .next u ∧ u.fb = s.fb
      ∧ ((∀ r c, pixel s.fb r c = false) → t.reg 0xF = 0
          ∧ ((∃ r c, r < 32 ∧ c < 64 ∧ drwBit s x y n r c = true) → u.reg 0xF = 1))

/-! ## Keypad and timers -/

/-- FX0A reads `KeyWait()` once: with no key pc goes back to the instruction and V[X] is unchanged; with key k, V[X] is k
and pc stays after the instruction (spec 46_keys_timers R234; the wait as a re-execution is the spec's own decision
D13). -/
def Obligations.KeyWaitBlocksOrLoads : Prop :=
  ∀ (x : RegIdx) (s : State),
    ∃ t, exec (.ldVxK x) s.advance = .next t ∧ t.env = s.afterKeyWait.env ∧ frame [.V, .pc, .env] s.advance t
      ∧ (s.keyWaitAnswer = none → t.pc = s.pc ∧ ∀ r, t.reg r = s.reg r)
      ∧ ∀ k, s.keyWaitAnswer = some k → t.pc = s.pc + 2 ∧ (t.reg x).toNat = k.toNat ∧ sameRegsExcept [x] s t

/-- While no key is reported, a step at FX0A ends with pc at the same instruction, the machine running and only the
timers and the environment changed, so that the next step fetches the same instruction (spec 40_step_cycle R128; that
the wait is a re-execution is the spec's own decision D13). -/
def Obligations.BlockedKeyWaitIsAWholeStep : Prop :=
  ∀ (s : State) (x : RegIdx), s.run = .running → s.nextInstr = some (.ldVxK x) → s.quitAnswer = false →
    s.pcInRange = true → s.keyWaitAnswer = none →
    ∃ t, step s = .next t ∧ t.run = .running ∧ t.pc = s.pc ∧ t.nextInstr = some (.ldVxK x)
      ∧ frame [.DT, .ST, .env] s t

/-- FX07 copies the delay count into V[X] and reads no clock (spec 46_keys_timers R236). -/
def Obligations.DelayTimerRead : Prop :=
  ∀ (x : RegIdx) (s : State),
    ∃ t, exec (.ldVxDT x) s = .next t ∧ t.reg x = s.DT.count ∧ sameRegsExcept [x] s t ∧ frame [.V] s t

/-- FX15 and FX18 set their timer's count to V[X], clear what had accumulated and renew the reference by one read of the
clock; the other timer and everything else are unchanged (spec 46_keys_timers R237, R238, 60_exceptions R280). -/
def Obligations.TimerSetInstructions : Prop :=
  ∀ (x : RegIdx) (s : State),
    (∃ t, exec (.ldDTVx x) s = .next t ∧ t.DT.count = s.reg x ∧ t.DT.acc = 0 ∧ t.DT.ref = s.now
        ∧ t.env = s.afterNow.env ∧ t.env.clock = s.now ∧ frame [.DT, .env] s t)
      ∧ ∃ t, exec (.ldSTVx x) s = .next t ∧ t.ST.count = s.reg x ∧ t.ST.acc = 0 ∧ t.ST.ref = s.now
        ∧ t.soundCount = s.reg x ∧ t.env = s.afterNow.env ∧ t.env.clock = s.now ∧ frame [.ST, .env] s t

/-! ## Reset -/

/-- Reset with an image that fits runs from 512 with the image in memory at 512, the font at FONT_BASE, zero elsewhere,
and every register, the stack depth, the timers, the frame buffer and the halt record zero; an image of more than 3584
bytes leaves the machine halted with IMAGE_TOO_LARGE and no byte of it copied (spec 70_reset_and_hazards R300, R301,
10_state R42; the zeros of V, I, sp, the stack, the timers' rest and the frame buffer are the spec's own decision D9,
log 6, and the state after an oversized image D28). -/
def Obligations.ResetLoadsImage : Prop :=
  ∀ (c : Config) (image : List Byte), c.legal = true →
    (image.length ≤ 3584 →
      (resetWith c image).run = .running ∧ (resetWith c image).haltCause = .none
        ∧ (resetWith c image).imageSize = image.length
        ∧ (∀ k, k < image.length → (resetWith c image).readByte (512 + k) = image.getD k 0)
        ∧ ∀ a, ¬ (512 ≤ a ∧ a < 512 + image.length) → ¬ (c.fontBase ≤ a ∧ a < c.fontBase + 80) →
            (resetWith c image).readByte a = 0)
      ∧ (3584 < image.length →
        (resetWith c image).run = .halted ∧ (resetWith c image).haltCause = .imageTooLarge
          ∧ (resetWith c image).imageSize = 0
          ∧ ∀ a, ¬ (c.fontBase ≤ a ∧ a < c.fontBase + 80) → (resetWith c image).readByte a = 0)
      ∧ (∀ k, k < 80 → (resetWith c image).readByte (c.fontBase + k) = c.fontData.getD k 0)
      ∧ (resetWith c image).pc = 512 ∧ (∀ r, (resetWith c image).reg r = 0) ∧ (resetWith c image).I = 0
      ∧ (resetWith c image).sp = 0 ∧ (∀ k, (resetWith c image).stack.getD k 0 = 0)
      ∧ (resetWith c image).DT.count = 0 ∧ (resetWith c image).ST.count = 0
      ∧ (resetWith c image).DT.acc = 0 ∧ (resetWith c image).ST.acc = 0
      ∧ (resetWith c image).DT.ref = (resetWith c image).env.clock
      ∧ (resetWith c image).ST.ref = (resetWith c image).env.clock
      ∧ (∀ y x, pixel (resetWith c image).fb y x = false)
      ∧ (resetWith c image).haltOpcode = 0 ∧ (resetWith c image).haltAddr = 0
      ∧ (resetWith c image).outputs = []
      ∧ resetWith hardwareConfig [] = State.reset
end

