-- ==== Sys2Proof/Laws/Memory.lean ====
section
/-! SUPPORT. The laws of memory as a list of cells: a read after a write, and that every operation keeps the canonical
form. -/

namespace Sys2Proof.Machine

variable (d : Nat → Byte) (m : List Host.Cell) (a b : Nat) (v : Byte)

theorem Memory.read_erase : Memory.read d (Memory.erase m a) b = if b = a then d b else Memory.read d m b := by
  induction m with
  | nil => simp [Memory.erase, Memory.read]
  | cons c rest ih =>
    obtain ⟨k, w⟩ := c
    simp only [Memory.erase, Memory.read]
    split
    · subst k; rw [ih]; split <;> simp_all [Ne.symm]
    · simp only [Memory.read, ih]; split <;> simp_all

theorem Memory.read_insert (h : ∀ c ∈ m, c.1 ≠ a) :
    Memory.read d (Memory.insert m a v) b = if b = a then v else Memory.read d m b := by
  induction m with
  | nil => simp [Memory.insert, Memory.read, eq_comm]
  | cons c rest ih =>
    obtain ⟨k, w⟩ := c
    have hk : k ≠ a := h (k, w) (by simp)
    simp only [Memory.insert]
    split
    · simp [Memory.read, eq_comm]
    · simp only [Memory.read, ih fun c hc => h c (by simp [hc])]
      split <;> simp_all

theorem Memory.erase_keys : ∀ c ∈ Memory.erase m a, c.1 ≠ a := by
  induction m with
  | nil => simp [Memory.erase]
  | cons c rest ih =>
    obtain ⟨k, w⟩ := c
    simp only [Memory.erase]
    split
    · exact ih
    · simp only [List.mem_cons, forall_eq_or_imp]; exact ⟨by assumption, ih⟩

/-- A read after a write: the value written at its address, the old byte everywhere else. -/
theorem Memory.read_write : Memory.read d (Memory.write d m a v) b = if b = a then v else Memory.read d m b := by
  unfold Memory.write
  split
  · rw [Memory.read_erase]; split <;> simp_all
  · rw [Memory.read_insert _ _ _ _ _ (Memory.erase_keys m a), Memory.read_erase]; split <;> simp_all

theorem Memory.erase_subset : ∀ c ∈ Memory.erase m a, c ∈ m := by
  induction m with
  | nil => simp [Memory.erase]
  | cons c rest ih =>
    obtain ⟨k, w⟩ := c
    simp only [Memory.erase]
    split
    · exact fun c hc => List.mem_cons_of_mem _ (ih c hc)
    · simp only [List.mem_cons]
      rintro c (rfl | hc)
      · exact .inl rfl
      · exact .inr (ih c hc)

theorem Memory.mem_insert : ∀ c ∈ Memory.insert m a v, c = (a, v) ∨ c ∈ m := by
  induction m with
  | nil => simp [Memory.insert]
  | cons c rest ih =>
    obtain ⟨k, w⟩ := c
    simp only [Memory.insert]
    split
    · simp
    · simp only [List.mem_cons]
      rintro c (rfl | hc)
      · exact .inr (.inl rfl)
      · rcases ih c hc with h | h
        · exact .inl h
        · exact .inr (.inr h)

theorem Memory.wf_erase (h : Memory.wf d m) : Memory.wf d (Memory.erase m a) := by
  refine ⟨?_, fun c hc => h.2 c (Memory.erase_subset m a c hc)⟩
  have h1 := h.1
  clear h
  induction m with
  | nil => exact List.Pairwise.nil
  | cons c rest ih =>
    obtain ⟨k, w⟩ := c
    rw [List.pairwise_cons] at h1
    simp only [Memory.erase]
    split
    · exact ih h1.2
    · exact List.pairwise_cons.2 ⟨fun c hc => h1.1 c (Memory.erase_subset rest a c hc), ih h1.2⟩

theorem Memory.wf_insert (h : Memory.wf d m) (hk : ∀ c ∈ m, c.1 ≠ a) (ha : a < memSize) (hv : v ≠ d a) :
    Memory.wf d (Memory.insert m a v) := by
  refine ⟨?_, fun c hc => ?_⟩
  · have h1 := h.1
    clear h
    induction m with
    | nil => simp [Memory.insert]
    | cons c rest ih =>
      obtain ⟨k, w⟩ := c
      have hka : k ≠ a := hk (k, w) (by simp)
      rw [List.pairwise_cons] at h1
      simp only [Memory.insert]
      split
      · rename_i hlt
        refine List.pairwise_cons.2 ⟨fun c hc => ?_, List.pairwise_cons.2 h1⟩
        rcases List.mem_cons.1 hc with rfl | hc
        · exact hlt
        · exact Nat.lt_trans hlt (h1.1 c hc)
      · refine List.pairwise_cons.2 ⟨fun c hc => ?_, ih (fun c hc => hk c (by simp [hc])) h1.2⟩
        rcases Memory.mem_insert rest a v c hc with rfl | hc
        · simp only; omega
        · exact h1.1 c hc
  · rcases Memory.mem_insert m a v c hc with rfl | hc
    · exact ⟨ha, hv⟩
    · exact h.2 c hc

/-- A write to an address of the memory keeps the canonical form. -/
theorem Memory.wf_write (h : Memory.wf d m) (ha : a < memSize) : Memory.wf d (Memory.write d m a v) := by
  unfold Memory.write
  split
  · exact Memory.wf_erase d m a h
  · exact Memory.wf_insert d _ a v (Memory.wf_erase d m a h) (Memory.erase_keys m a) ha ‹_›

/-- The empty memory is canonical. -/
theorem Memory.wf_nil : Memory.wf d [] := ⟨List.Pairwise.nil, by simp⟩

end Sys2Proof.Machine
end

