-- ==== Sys2Proof/Laws/State.lean ====
section
/-! SUPPORT. What each field is after each named update of a state: one lemma per field per update. -/

namespace Sys2Proof.Machine

section withV
variable (s : State) (v : Vector Byte 16)
@[simp] theorem State.withV_mem : (s.withV v).mem = s.mem := rfl
@[simp] theorem State.withV_V : (s.withV v).V = v := rfl
@[simp] theorem State.withV_I : (s.withV v).I = s.I := rfl
@[simp] theorem State.withV_pc : (s.withV v).pc = s.pc := rfl
@[simp] theorem State.withV_stack : (s.withV v).stack = s.stack := rfl
@[simp] theorem State.withV_sp : (s.withV v).sp = s.sp := rfl
@[simp] theorem State.withV_DT : (s.withV v).DT = s.DT := rfl
@[simp] theorem State.withV_ST : (s.withV v).ST = s.ST := rfl
@[simp] theorem State.withV_fb : (s.withV v).fb = s.fb := rfl
@[simp] theorem State.withV_imageSize : (s.withV v).imageSize = s.imageSize := rfl
@[simp] theorem State.withV_run : (s.withV v).run = s.run := rfl
@[simp] theorem State.withV_haltCause : (s.withV v).haltCause = s.haltCause := rfl
@[simp] theorem State.withV_haltOpcode : (s.withV v).haltOpcode = s.haltOpcode := rfl
@[simp] theorem State.withV_haltAddr : (s.withV v).haltAddr = s.haltAddr := rfl
@[simp] theorem State.withV_cfg : (s.withV v).cfg = s.cfg := rfl
@[simp] theorem State.withV_env : (s.withV v).env = s.env := rfl
@[simp] theorem State.withV_outputs : (s.withV v).outputs = s.outputs := rfl
end withV

section withI
variable (s : State) (v : Word)
@[simp] theorem State.withI_mem : (s.withI v).mem = s.mem := rfl
@[simp] theorem State.withI_V : (s.withI v).V = s.V := rfl
@[simp] theorem State.withI_I : (s.withI v).I = v := rfl
@[simp] theorem State.withI_pc : (s.withI v).pc = s.pc := rfl
@[simp] theorem State.withI_stack : (s.withI v).stack = s.stack := rfl
@[simp] theorem State.withI_sp : (s.withI v).sp = s.sp := rfl
@[simp] theorem State.withI_DT : (s.withI v).DT = s.DT := rfl
@[simp] theorem State.withI_ST : (s.withI v).ST = s.ST := rfl
@[simp] theorem State.withI_fb : (s.withI v).fb = s.fb := rfl
@[simp] theorem State.withI_imageSize : (s.withI v).imageSize = s.imageSize := rfl
@[simp] theorem State.withI_run : (s.withI v).run = s.run := rfl
@[simp] theorem State.withI_haltCause : (s.withI v).haltCause = s.haltCause := rfl
@[simp] theorem State.withI_haltOpcode : (s.withI v).haltOpcode = s.haltOpcode := rfl
@[simp] theorem State.withI_haltAddr : (s.withI v).haltAddr = s.haltAddr := rfl
@[simp] theorem State.withI_cfg : (s.withI v).cfg = s.cfg := rfl
@[simp] theorem State.withI_env : (s.withI v).env = s.env := rfl
@[simp] theorem State.withI_outputs : (s.withI v).outputs = s.outputs := rfl
end withI

section withPc
variable (s : State) (v : Word)
@[simp] theorem State.withPc_mem : (s.withPc v).mem = s.mem := rfl
@[simp] theorem State.withPc_V : (s.withPc v).V = s.V := rfl
@[simp] theorem State.withPc_I : (s.withPc v).I = s.I := rfl
@[simp] theorem State.withPc_pc : (s.withPc v).pc = v := rfl
@[simp] theorem State.withPc_stack : (s.withPc v).stack = s.stack := rfl
@[simp] theorem State.withPc_sp : (s.withPc v).sp = s.sp := rfl
@[simp] theorem State.withPc_DT : (s.withPc v).DT = s.DT := rfl
@[simp] theorem State.withPc_ST : (s.withPc v).ST = s.ST := rfl
@[simp] theorem State.withPc_fb : (s.withPc v).fb = s.fb := rfl
@[simp] theorem State.withPc_imageSize : (s.withPc v).imageSize = s.imageSize := rfl
@[simp] theorem State.withPc_run : (s.withPc v).run = s.run := rfl
@[simp] theorem State.withPc_haltCause : (s.withPc v).haltCause = s.haltCause := rfl
@[simp] theorem State.withPc_haltOpcode : (s.withPc v).haltOpcode = s.haltOpcode := rfl
@[simp] theorem State.withPc_haltAddr : (s.withPc v).haltAddr = s.haltAddr := rfl
@[simp] theorem State.withPc_cfg : (s.withPc v).cfg = s.cfg := rfl
@[simp] theorem State.withPc_env : (s.withPc v).env = s.env := rfl
@[simp] theorem State.withPc_outputs : (s.withPc v).outputs = s.outputs := rfl
end withPc

section withMem
variable (s : State) (m : List Host.Cell)
@[simp] theorem State.withMem_mem : (s.withMem m).mem = m := rfl
@[simp] theorem State.withMem_V : (s.withMem m).V = s.V := rfl
@[simp] theorem State.withMem_I : (s.withMem m).I = s.I := rfl
@[simp] theorem State.withMem_pc : (s.withMem m).pc = s.pc := rfl
@[simp] theorem State.withMem_stack : (s.withMem m).stack = s.stack := rfl
@[simp] theorem State.withMem_sp : (s.withMem m).sp = s.sp := rfl
@[simp] theorem State.withMem_DT : (s.withMem m).DT = s.DT := rfl
@[simp] theorem State.withMem_ST : (s.withMem m).ST = s.ST := rfl
@[simp] theorem State.withMem_fb : (s.withMem m).fb = s.fb := rfl
@[simp] theorem State.withMem_imageSize : (s.withMem m).imageSize = s.imageSize := rfl
@[simp] theorem State.withMem_run : (s.withMem m).run = s.run := rfl
@[simp] theorem State.withMem_haltCause : (s.withMem m).haltCause = s.haltCause := rfl
@[simp] theorem State.withMem_haltOpcode : (s.withMem m).haltOpcode = s.haltOpcode := rfl
@[simp] theorem State.withMem_haltAddr : (s.withMem m).haltAddr = s.haltAddr := rfl
@[simp] theorem State.withMem_cfg : (s.withMem m).cfg = s.cfg := rfl
@[simp] theorem State.withMem_env : (s.withMem m).env = s.env := rfl
@[simp] theorem State.withMem_outputs : (s.withMem m).outputs = s.outputs := rfl
end withMem

section withDT
variable (s : State) (t : Timer)
@[simp] theorem State.withDT_mem : (s.withDT t).mem = s.mem := rfl
@[simp] theorem State.withDT_V : (s.withDT t).V = s.V := rfl
@[simp] theorem State.withDT_I : (s.withDT t).I = s.I := rfl
@[simp] theorem State.withDT_pc : (s.withDT t).pc = s.pc := rfl
@[simp] theorem State.withDT_stack : (s.withDT t).stack = s.stack := rfl
@[simp] theorem State.withDT_sp : (s.withDT t).sp = s.sp := rfl
@[simp] theorem State.withDT_DT : (s.withDT t).DT = t := rfl
@[simp] theorem State.withDT_ST : (s.withDT t).ST = s.ST := rfl
@[simp] theorem State.withDT_fb : (s.withDT t).fb = s.fb := rfl
@[simp] theorem State.withDT_imageSize : (s.withDT t).imageSize = s.imageSize := rfl
@[simp] theorem State.withDT_run : (s.withDT t).run = s.run := rfl
@[simp] theorem State.withDT_haltCause : (s.withDT t).haltCause = s.haltCause := rfl
@[simp] theorem State.withDT_haltOpcode : (s.withDT t).haltOpcode = s.haltOpcode := rfl
@[simp] theorem State.withDT_haltAddr : (s.withDT t).haltAddr = s.haltAddr := rfl
@[simp] theorem State.withDT_cfg : (s.withDT t).cfg = s.cfg := rfl
@[simp] theorem State.withDT_env : (s.withDT t).env = s.env := rfl
@[simp] theorem State.withDT_outputs : (s.withDT t).outputs = s.outputs := rfl
end withDT

section withST
variable (s : State) (t : Timer)
@[simp] theorem State.withST_mem : (s.withST t).mem = s.mem := rfl
@[simp] theorem State.withST_V : (s.withST t).V = s.V := rfl
@[simp] theorem State.withST_I : (s.withST t).I = s.I := rfl
@[simp] theorem State.withST_pc : (s.withST t).pc = s.pc := rfl
@[simp] theorem State.withST_stack : (s.withST t).stack = s.stack := rfl
@[simp] theorem State.withST_sp : (s.withST t).sp = s.sp := rfl
@[simp] theorem State.withST_DT : (s.withST t).DT = s.DT := rfl
@[simp] theorem State.withST_ST : (s.withST t).ST = t := rfl
@[simp] theorem State.withST_fb : (s.withST t).fb = s.fb := rfl
@[simp] theorem State.withST_imageSize : (s.withST t).imageSize = s.imageSize := rfl
@[simp] theorem State.withST_run : (s.withST t).run = s.run := rfl
@[simp] theorem State.withST_haltCause : (s.withST t).haltCause = s.haltCause := rfl
@[simp] theorem State.withST_haltOpcode : (s.withST t).haltOpcode = s.haltOpcode := rfl
@[simp] theorem State.withST_haltAddr : (s.withST t).haltAddr = s.haltAddr := rfl
@[simp] theorem State.withST_cfg : (s.withST t).cfg = s.cfg := rfl
@[simp] theorem State.withST_env : (s.withST t).env = s.env := rfl
@[simp] theorem State.withST_outputs : (s.withST t).outputs = s.outputs := rfl
end withST

section withFb
variable (s : State) (f : FrameBuffer)
@[simp] theorem State.withFb_mem : (s.withFb f).mem = s.mem := rfl
@[simp] theorem State.withFb_V : (s.withFb f).V = s.V := rfl
@[simp] theorem State.withFb_I : (s.withFb f).I = s.I := rfl
@[simp] theorem State.withFb_pc : (s.withFb f).pc = s.pc := rfl
@[simp] theorem State.withFb_stack : (s.withFb f).stack = s.stack := rfl
@[simp] theorem State.withFb_sp : (s.withFb f).sp = s.sp := rfl
@[simp] theorem State.withFb_DT : (s.withFb f).DT = s.DT := rfl
@[simp] theorem State.withFb_ST : (s.withFb f).ST = s.ST := rfl
@[simp] theorem State.withFb_fb : (s.withFb f).fb = f := rfl
@[simp] theorem State.withFb_imageSize : (s.withFb f).imageSize = s.imageSize := rfl
@[simp] theorem State.withFb_run : (s.withFb f).run = s.run := rfl
@[simp] theorem State.withFb_haltCause : (s.withFb f).haltCause = s.haltCause := rfl
@[simp] theorem State.withFb_haltOpcode : (s.withFb f).haltOpcode = s.haltOpcode := rfl
@[simp] theorem State.withFb_haltAddr : (s.withFb f).haltAddr = s.haltAddr := rfl
@[simp] theorem State.withFb_cfg : (s.withFb f).cfg = s.cfg := rfl
@[simp] theorem State.withFb_env : (s.withFb f).env = s.env := rfl
@[simp] theorem State.withFb_outputs : (s.withFb f).outputs = s.outputs := rfl
end withFb

section withEnv
variable (s : State) (e : Env)
@[simp] theorem State.withEnv_mem : (s.withEnv e).mem = s.mem := rfl
@[simp] theorem State.withEnv_V : (s.withEnv e).V = s.V := rfl
@[simp] theorem State.withEnv_I : (s.withEnv e).I = s.I := rfl
@[simp] theorem State.withEnv_pc : (s.withEnv e).pc = s.pc := rfl
@[simp] theorem State.withEnv_stack : (s.withEnv e).stack = s.stack := rfl
@[simp] theorem State.withEnv_sp : (s.withEnv e).sp = s.sp := rfl
@[simp] theorem State.withEnv_DT : (s.withEnv e).DT = s.DT := rfl
@[simp] theorem State.withEnv_ST : (s.withEnv e).ST = s.ST := rfl
@[simp] theorem State.withEnv_fb : (s.withEnv e).fb = s.fb := rfl
@[simp] theorem State.withEnv_imageSize : (s.withEnv e).imageSize = s.imageSize := rfl
@[simp] theorem State.withEnv_run : (s.withEnv e).run = s.run := rfl
@[simp] theorem State.withEnv_haltCause : (s.withEnv e).haltCause = s.haltCause := rfl
@[simp] theorem State.withEnv_haltOpcode : (s.withEnv e).haltOpcode = s.haltOpcode := rfl
@[simp] theorem State.withEnv_haltAddr : (s.withEnv e).haltAddr = s.haltAddr := rfl
@[simp] theorem State.withEnv_cfg : (s.withEnv e).cfg = s.cfg := rfl
@[simp] theorem State.withEnv_env : (s.withEnv e).env = e := rfl
@[simp] theorem State.withEnv_outputs : (s.withEnv e).outputs = s.outputs := rfl
end withEnv

section withOutputs
variable (s : State) (o : List Output)
@[simp] theorem State.withOutputs_mem : (s.withOutputs o).mem = s.mem := rfl
@[simp] theorem State.withOutputs_V : (s.withOutputs o).V = s.V := rfl
@[simp] theorem State.withOutputs_I : (s.withOutputs o).I = s.I := rfl
@[simp] theorem State.withOutputs_pc : (s.withOutputs o).pc = s.pc := rfl
@[simp] theorem State.withOutputs_stack : (s.withOutputs o).stack = s.stack := rfl
@[simp] theorem State.withOutputs_sp : (s.withOutputs o).sp = s.sp := rfl
@[simp] theorem State.withOutputs_DT : (s.withOutputs o).DT = s.DT := rfl
@[simp] theorem State.withOutputs_ST : (s.withOutputs o).ST = s.ST := rfl
@[simp] theorem State.withOutputs_fb : (s.withOutputs o).fb = s.fb := rfl
@[simp] theorem State.withOutputs_imageSize : (s.withOutputs o).imageSize = s.imageSize := rfl
@[simp] theorem State.withOutputs_run : (s.withOutputs o).run = s.run := rfl
@[simp] theorem State.withOutputs_haltCause : (s.withOutputs o).haltCause = s.haltCause := rfl
@[simp] theorem State.withOutputs_haltOpcode : (s.withOutputs o).haltOpcode = s.haltOpcode := rfl
@[simp] theorem State.withOutputs_haltAddr : (s.withOutputs o).haltAddr = s.haltAddr := rfl
@[simp] theorem State.withOutputs_cfg : (s.withOutputs o).cfg = s.cfg := rfl
@[simp] theorem State.withOutputs_env : (s.withOutputs o).env = s.env := rfl
@[simp] theorem State.withOutputs_outputs : (s.withOutputs o).outputs = o := rfl
end withOutputs

section withStack
variable (s : State) (e : List Word) (d : Nat)
@[simp] theorem State.withStack_mem : (s.withStack e d).mem = s.mem := rfl
@[simp] theorem State.withStack_V : (s.withStack e d).V = s.V := rfl
@[simp] theorem State.withStack_I : (s.withStack e d).I = s.I := rfl
@[simp] theorem State.withStack_pc : (s.withStack e d).pc = s.pc := rfl
@[simp] theorem State.withStack_stack : (s.withStack e d).stack = e := rfl
@[simp] theorem State.withStack_sp : (s.withStack e d).sp = d := rfl
@[simp] theorem State.withStack_DT : (s.withStack e d).DT = s.DT := rfl
@[simp] theorem State.withStack_ST : (s.withStack e d).ST = s.ST := rfl
@[simp] theorem State.withStack_fb : (s.withStack e d).fb = s.fb := rfl
@[simp] theorem State.withStack_imageSize : (s.withStack e d).imageSize = s.imageSize := rfl
@[simp] theorem State.withStack_run : (s.withStack e d).run = s.run := rfl
@[simp] theorem State.withStack_haltCause : (s.withStack e d).haltCause = s.haltCause := rfl
@[simp] theorem State.withStack_haltOpcode : (s.withStack e d).haltOpcode = s.haltOpcode := rfl
@[simp] theorem State.withStack_haltAddr : (s.withStack e d).haltAddr = s.haltAddr := rfl
@[simp] theorem State.withStack_cfg : (s.withStack e d).cfg = s.cfg := rfl
@[simp] theorem State.withStack_env : (s.withStack e d).env = s.env := rfl
@[simp] theorem State.withStack_outputs : (s.withStack e d).outputs = s.outputs := rfl
end withStack

section withHalt
variable (s : State) (c : HaltCause) (w a : Word)
@[simp] theorem State.withHalt_mem : (s.withHalt c w a).mem = s.mem := rfl
@[simp] theorem State.withHalt_V : (s.withHalt c w a).V = s.V := rfl
@[simp] theorem State.withHalt_I : (s.withHalt c w a).I = s.I := rfl
@[simp] theorem State.withHalt_pc : (s.withHalt c w a).pc = s.pc := rfl
@[simp] theorem State.withHalt_stack : (s.withHalt c w a).stack = s.stack := rfl
@[simp] theorem State.withHalt_sp : (s.withHalt c w a).sp = s.sp := rfl
@[simp] theorem State.withHalt_DT : (s.withHalt c w a).DT = s.DT := rfl
@[simp] theorem State.withHalt_ST : (s.withHalt c w a).ST = s.ST := rfl
@[simp] theorem State.withHalt_fb : (s.withHalt c w a).fb = s.fb := rfl
@[simp] theorem State.withHalt_imageSize : (s.withHalt c w a).imageSize = s.imageSize := rfl
@[simp] theorem State.withHalt_run : (s.withHalt c w a).run = .halted := rfl
@[simp] theorem State.withHalt_haltCause : (s.withHalt c w a).haltCause = c := rfl
@[simp] theorem State.withHalt_haltOpcode : (s.withHalt c w a).haltOpcode = w := rfl
@[simp] theorem State.withHalt_haltAddr : (s.withHalt c w a).haltAddr = a := rfl
@[simp] theorem State.withHalt_cfg : (s.withHalt c w a).cfg = s.cfg := rfl
@[simp] theorem State.withHalt_env : (s.withHalt c w a).env = s.env := rfl
@[simp] theorem State.withHalt_outputs : (s.withHalt c w a).outputs = s.outputs := rfl
end withHalt

end Sys2Proof.Machine
end

