-- ==== Sys2Proof/Laws/Ops.lean ====
section
/-! SUPPORT. What each shared operation does, said once: registers, addresses, block reads and writes, ports, timers. -/

namespace Sys2Proof.Machine

/-! ## Registers -/

/-- A register after a register write. -/
theorem State.reg_setReg (s : State) (x y : RegIdx) (v : Byte) :
    (s.setReg x v).reg y = if y = x then v else s.reg y := by
  simp only [State.reg, State.setReg, State.withV_V, Vector.getElem_set, BitVec.toNat_inj, eq_comm]

/-- Two states with the same registers read the same. -/
theorem State.reg_congr {s t : State} (h : t.V = s.V) (x : RegIdx) : t.reg x = s.reg x := by
  simp [State.reg, h]

/-- Register k after `writeRegs`: the byte of the list that lands on it, else what it was. -/
theorem writeRegs_get (bs : List Byte) : ∀ (v : Vector Byte 16) (k : Nat) (r : Nat) (hr : r < 16),
    (writeRegs v k bs)[r] = if k ≤ r ∧ r < k + bs.length then bs.getD (r - k) 0 else v[r] := by
  induction bs with
  | nil => intro v k r hr; rw [writeRegs, if_neg (by simp only [List.length_nil]; omega)]
  | cons b bs ih =>
    intro v k r hr
    rw [writeRegs, ih, Vector.getElem_setIfInBounds]
    simp only [List.length_cons]
    by_cases h1 : k = r
    · subst h1; rw [if_neg (by omega), if_pos (by omega)]; simp
    · by_cases h2 : k + 1 ≤ r ∧ r < k + 1 + bs.length
      · have h3 : k ≤ r ∧ r < k + (bs.length + 1) := by omega
        obtain ⟨j, rfl⟩ : ∃ j, r = k + 1 + j := ⟨r - (k + 1), by omega⟩
        have e : k + 1 + j - k = j + 1 := by omega
        rw [if_pos h2, if_pos h3, e]
        simp
      · have h3 : ¬ (k ≤ r ∧ r < k + (bs.length + 1)) := by omega
        rw [if_neg h2, if_neg h3]; simp [h1]

/-! ## Memory through the state -/

/-- Any byte after a byte write. -/
theorem State.readByte_writeByte (s : State) (a b : Nat) (v : Byte) :
    (s.writeByte a v).readByte b = if b = a then v else s.readByte b := by
  simp only [State.readByte, State.writeByte, State.withMem_mem, State.withMem_cfg, Memory.read_write]

/-- Two states with the same memory and parameters read the same bytes. -/
theorem State.readByte_congr {s t : State} (hm : t.mem = s.mem) (hc : t.cfg = s.cfg) (a : Nat) :
    t.readByte a = s.readByte a := by
  simp [State.readByte, hm, hc]

/-- A resolved address lies in the memory (spec 20_memory R66). -/
theorem resolve_lt {c : Config} {addr a : Nat} (h : resolve c addr = some a) : a < memSize := by
  unfold resolve at h
  split at h
  · simp_all
  · split at h
    · simp at h
    · simp only [Option.some.injEq] at h
      subst h; exact Nat.mod_lt _ (by decide)

/-- A resolved address is the address modulo the size of the memory. -/
theorem resolve_eq_mod {c : Config} {addr a : Nat} (h : resolve c addr = some a) : a = addr % memSize := by
  unfold resolve at h
  split at h
  · rename_i hlt; simp only [Option.some.injEq] at h; rw [← h, Nat.mod_eq_of_lt hlt]
  · split at h <;> simp_all

/-- When an address resolves. -/
theorem resolve_isSome (c : Config) (addr : Nat) :
    (resolve c addr).isSome = true ↔ c.oobPolicy = .wrap ∨ addr < memSize := by
  unfold resolve
  split
  · simp_all
  · split <;> simp_all

/-- Every address of a block in range resolves. -/
theorem resolve_of_block {c : Config} {addr n k : Nat} (h : blockInRange c addr n) (hk : k < n) :
    resolve c (addr + k) = some ((addr + k) % memSize) := by
  obtain ⟨a, ha⟩ := Option.isSome_iff_exists.1 ((resolve_isSome c (addr + k)).2 (by
    rcases h with h | h | h
    · exact .inl h
    · exact .inr (by omega)
    · omega))
  rw [ha, resolve_eq_mod ha]

/-- A block not in range has a last address that does not resolve. -/
theorem blockInRange_succ (c : Config) (addr n : Nat) :
    blockInRange c addr (n + 1) ↔ (resolve c addr).isSome = true ∧ blockInRange c (addr + 1) n := by
  rw [resolve_isSome]; unfold blockInRange
  constructor
  · rintro (h | h | h)
    · exact ⟨.inl h, .inl h⟩
    · exact ⟨.inr (by omega), .inr (.inl (by omega))⟩
    · omega
  · rintro ⟨h1 | h1, h2⟩
    · exact .inl h1
    · rcases h2 with h2 | h2 | h2
      · exact .inl h2
      · exact .inr (.inl (by omega))
      · exact .inr (.inl (by omega))

/-- A block in range is read whole. -/
theorem State.memReadBytes_inRange (s : State) (n : Nat) : ∀ addr, blockInRange s.cfg addr n →
    s.memReadBytes addr n = some ((List.range n).map fun k => byteAt s (addr + k)) := by
  induction n with
  | zero => intro addr _; rfl
  | succ n ih =>
    intro addr h
    obtain ⟨h1, h2⟩ := (blockInRange_succ _ _ _).1 h
    obtain ⟨a, ha⟩ := Option.isSome_iff_exists.1 h1
    have hr : s.memRead addr = some (s.readByte a) := by simp [State.memRead, ha]
    rw [State.memReadBytes, hr]
    simp only [ih _ h2, List.range_succ_eq_map, List.map_cons, List.map_map]
    congr 2
    · simp [byteAt, hr]
    · congr 1; funext k; simp only [Function.comp]; congr 1; omega

/-- A block not in range is not read at all. -/
theorem State.memReadBytes_outOfRange (s : State) (n : Nat) : ∀ addr, ¬ blockInRange s.cfg addr n →
    s.memReadBytes addr n = none := by
  induction n with
  | zero => intro addr h; exact absurd (.inr (.inr rfl)) h
  | succ n ih =>
    intro addr h
    rw [State.memReadBytes]
    cases hr : resolve s.cfg addr with
    | none => simp [State.memRead, hr]
    | some a =>
      have h2 : ¬ blockInRange s.cfg (addr + 1) n := fun h2 =>
        h ((blockInRange_succ _ _ _).2 ⟨by simp [hr], h2⟩)
      simp [State.memRead, hr, ih _ h2]

/-- A block in range is written whole: only memory changes, a byte outside the block is what it was, and a block no
longer than the memory reads back as written. -/
theorem State.memWriteBytes_inRange (bs : List Byte) : ∀ (s : State) (addr : Nat),
    blockInRange s.cfg addr bs.length → ∃ m, s.memWriteBytes addr bs = some (s.withMem m)
      ∧ (∀ a, (∀ k, k < bs.length → a ≠ (addr + k) % memSize) → (s.withMem m).readByte a = s.readByte a)
      ∧ (bs.length ≤ memSize → ∀ k, (h : k < bs.length) → (s.withMem m).readByte ((addr + k) % memSize) = bs[k])
      ∧ (MemoryInv s → MemoryInv (s.withMem m)) := by
  induction bs with
  | nil => intro s addr _; exact ⟨s.mem, rfl, fun _ _ => rfl, fun _ k h => absurd h (by simp), id⟩
  | cons b bs ih =>
    intro s addr h
    obtain ⟨h1, h2⟩ := (blockInRange_succ _ _ _).1 h
    have ha : resolve s.cfg addr = some (addr % memSize) := by
      obtain ⟨a, ha⟩ := Option.isSome_iff_exists.1 h1
      rw [ha, resolve_eq_mod ha]
    obtain ⟨m, e, hout, hin, hwf⟩ :=
      ih (s.writeByte (addr % memSize) b) (addr + 1) (by simpa [State.writeByte] using h2)
    have em : (s.writeByte (addr % memSize) b).withMem m = s.withMem m := rfl
    rw [em] at e hout hin hwf
    refine ⟨m, ?_, fun a hne => ?_, fun hlen k hk => ?_, fun hw => hwf ?_⟩
    · rw [State.memWriteBytes, State.memWrite, ha]; exact e
    · have h0 := hne 0 (by simp)
      rw [hout a fun k hk => by have := hne (k + 1) (by simpa using hk); rwa [show addr + 1 + k = addr + (k + 1) by omega]]
      rw [State.readByte_writeByte, if_neg (by simpa using h0)]
    · cases k with
      | zero =>
        rw [hout _ fun k hk => ?_, State.readByte_writeByte]
        · simp
        · simp only [List.length_cons] at hlen
          simp only [memSize] at hlen ⊢; omega
      | succ k =>
        have := hin (by simp at hlen; omega) k (by simpa using hk)
        simpa [show addr + 1 + k = addr + (k + 1) by omega] using this
    · exact Memory.wf_write _ _ _ _ hw (Nat.mod_lt _ (by decide))

/-- A block not in range is not written at all. -/
theorem State.memWriteBytes_outOfRange (bs : List Byte) : ∀ (s : State) (addr : Nat),
    ¬ blockInRange s.cfg addr bs.length → s.memWriteBytes addr bs = none := by
  induction bs with
  | nil => intro s addr h; exact absurd (.inr (.inr rfl)) h
  | cons b bs ih =>
    intro s addr h
    rw [State.memWriteBytes]
    cases hr : resolve s.cfg addr with
    | none => simp [State.memWrite, hr]
    | some a =>
      simp only [State.memWrite, hr]
      exact ih _ _ fun h2 => h ((blockInRange_succ _ _ _).2 ⟨by simp [hr], by simpa [State.writeByte] using h2⟩)

/-! ## The clock and the timers -/

/-- `Now()` never goes back (spec 00_scope R14). -/
theorem State.clock_le_now (s : State) : s.env.clock ≤ s.now := Nat.le_add_right _ _

/-- The loop of the decay: as many decrements as whole ticks have accumulated, at most the count. -/
theorem decayLoop_eq (tick : Nat) (ht : 0 < tick) : ∀ count acc,
    decayLoop tick count acc = (count - min count (acc / tick), acc - tick * min count (acc / tick)) := by
  intro count
  induction count with
  | zero => intro acc; simp [decayLoop]
  | succ n ih =>
    intro acc
    rw [decayLoop]
    split
    · rename_i h
      have e : acc / tick = (acc - tick) / tick + 1 := by
        rw [← Nat.add_div_right _ ht]; congr 1; omega
      rw [ih, e]
      refine Prod.ext ?_ ?_
      · simp only; omega
      · simp only [Nat.succ_min_succ, Nat.succ_eq_add_one, Nat.mul_add, Nat.mul_one]; omega
    · rename_i h
      rw [Nat.div_eq_of_lt (by omega)]; simp

/-- The loop never raises the count. -/
theorem decayLoop_le (tick count : Nat) : ∀ acc, (decayLoop tick count acc).1 ≤ count := by
  induction count with
  | zero => intro acc; simp [decayLoop]
  | succ n ih =>
    intro acc; rw [decayLoop]; split
    · exact Nat.le_succ_of_le (ih _)
    · exact Nat.le_refl _

/-- If the loop stops above zero, less than a tick is left over. -/
theorem decayLoop_acc (tick count : Nat) : ∀ acc, (decayLoop tick count acc).1 ≠ 0 →
    (decayLoop tick count acc).2 < tick := by
  induction count with
  | zero => intro acc h; simp [decayLoop] at h
  | succ n ih =>
    intro acc; rw [decayLoop]; split
    · exact ih _
    · intro _; simp only; omega

/-- What a decay leaves: a count no higher, the reference at the time of the decay, and less than a tick left over
while the count is positive. -/
theorem Timer.decay_spec (tick t : Nat) (T : Timer) :
    (T.decay tick t).count ≤ T.count ∧ (T.decay tick t).ref = t
      ∧ ((T.decay tick t).count ≠ 0 → (T.decay tick t).acc < tick) := by
  unfold Timer.decay
  split
  · rename_i h; simp [h]
  · have hle := decayLoop_le tick T.count.toNat (T.acc + (t - T.ref))
    have hlt := T.count.isLt
    refine ⟨?_, rfl, fun h => decayLoop_acc _ _ _ fun h0 => h ?_⟩
    · rw [BitVec.le_def]; simp only [BitVec.toNat_ofNat]; omega
    · simp [h0]

end Sys2Proof.Machine
end

