-- ==== Sys2Proof/Laws/Display.lean ====
section
/-! SUPPORT. Drawing, pixel by pixel. -/

namespace Sys2Proof.Machine

/-- A sprite byte placed on a row, column by column: its bit 7 in column `x0`, nothing right of column 63 (spec
45_display R214). -/
theorem spriteRow_bit (b : Byte) (x0 c : Nat) (hc : c < 64) :
    (spriteRow b x0).getMsbD c = (decide (x0 ≤ c) && decide (c < x0 + 8) && b.getLsbD (7 - (c - x0))) := by
  simp only [spriteRow, BitVec.getMsbD_eq_getLsbD, BitVec.getLsbD_ushiftRight, BitVec.getLsbD_shiftLeft,
    BitVec.getLsbD_setWidth, hc, decide_true, Bool.true_and]
  by_cases h1 : x0 ≤ c
  · by_cases h2 : c < x0 + 8
    · have e : x0 + (64 - 1 - c) - 56 = 7 - (c - x0) := by omega
      rw [e]
      have e1 : decide (x0 + (64 - 1 - c) < 64) = true := by simp; omega
      have e2 : decide (x0 + (64 - 1 - c) < 56) = false := by simp; omega
      have e3 : decide (7 - (c - x0) < 64) = true := by simp; omega
      simp only [e1, e2, e3, h1, h2, decide_true, Bool.not_false, Bool.true_and]
    · have e2 : decide (x0 + (64 - 1 - c) < 56) = true := by simp; omega
      simp [e2, h2]
  · have e1 : decide (x0 + (64 - 1 - c) < 64) = false := by simp; omega
    simp only [e1, h1, decide_false, Bool.false_and]

/-- The bit that a list of sprite bytes puts on a pixel when its first byte goes on row `y`. -/
def spriteRowsBit (x0 : Nat) (bs : List Byte) (y r c : Nat) : Bool :=
  decide (y ≤ r) && decide (r < y + bs.length) && (spriteRow (bs.getD (r - y) 0) x0).getMsbD c

/-- A pixel after one row is replaced. -/
theorem pixel_set (f : FrameBuffer) (y : Nat) (hy : y < 32) (v) (r c : Nat) (hr : r < 32) (hc : c < 64) :
    pixel (f.set y v) r c = if r = y then v.getMsbD c else pixel f r c := by
  simp only [pixel, dif_pos hr, displayW, hc, decide_true, Bool.true_and, Vector.getElem_set]
  by_cases h : y = r
  · simp [h]
  · simp [h, Ne.symm h]

/-- What `drawRows` does: every pixel is XORed with the sprite's bit on it, and the flag tells whether one went from on
to off. -/
theorem drawRows_spec (x0 : Nat) (bs : List Byte) : ∀ (y : Nat) (f : FrameBuffer) (hit : Bool),
    (∀ r c, r < 32 → c < 64 → pixel (drawRows x0 bs y f hit).1 r c = (pixel f r c ^^ spriteRowsBit x0 bs y r c))
      ∧ ((drawRows x0 bs y f hit).2 = true
        ↔ hit = true ∨ ∃ r c, r < 32 ∧ c < 64 ∧ pixel f r c = true ∧ spriteRowsBit x0 bs y r c = true) := by
  induction bs with
  | nil =>
    intro y f hit
    have hb : ∀ r c, spriteRowsBit x0 [] y r c = false := by
      intro r c
      unfold spriteRowsBit
      by_cases h : y ≤ r
      · have : ¬ r < y := by omega
        simp [this]
      · simp [h]
    constructor
    · intro r c _ _; rw [hb]; simp [drawRows]
    · simp [drawRows, hb]
  | cons b bs ih =>
    intro y f hit
    have hb : ∀ r c, spriteRowsBit x0 (b :: bs) y r c =
        if r = y then (spriteRow b x0).getMsbD c else spriteRowsBit x0 bs (y + 1) r c := by
      intro r c
      unfold spriteRowsBit
      by_cases h : r = y
      · subst h; simp
      · by_cases h2 : y ≤ r
        · obtain ⟨j, rfl⟩ : ∃ j, r = y + 1 + j := ⟨r - (y + 1), by omega⟩
          have e : y + 1 + j - y = j + 1 := by omega
          have e2 : y + 1 + j - (y + 1) = j := by omega
          have e3 : y ≤ y + 1 + j := by omega
          have e4 : y + 1 ≤ y + 1 + j := by omega
          have e5 : (y + 1 + j < y + (bs.length + 1)) ↔ y + 1 + j < y + 1 + bs.length := by omega
          simp only [if_neg h, e, e2, e3, e4, List.length_cons, e5, List.getD_cons_succ]
        · have : ¬ y + 1 ≤ r := by omega
          simp [h, h2, this]
    rw [drawRows]
    split
    · rename_i hy
      obtain ⟨i1, i2⟩ := ih (y + 1) (f.set y (f[y] ^^^ spriteRow b x0)) (hit || (f[y] &&& spriteRow b x0) != 0)
      have b0 : ∀ c, spriteRowsBit x0 bs (y + 1) y c = false := by
        intro c
        have h : ¬ y + 1 ≤ y := by omega
        simp only [spriteRowsBit, h, decide_false, Bool.false_and]
      have pf : ∀ c, c < 64 → pixel f y c = f[y].getMsbD c := by intro c hc; simp [pixel, hy, displayW, hc]
      constructor
      · intro r c hr hc
        rw [i1 r c hr hc, pixel_set _ _ hy _ _ _ hr hc, hb]
        by_cases h : r = y
        · subst h; simp only [if_true]; rw [b0, pf c hc]; simp
        · simp [h]
      · rw [i2]
        constructor
        · rintro (h | ⟨r, c, hr, hc, h1, h2⟩)
          · simp only [Bool.or_eq_true, bne_iff_ne] at h
            rcases h with h | h
            · exact .inl h
            · right
              have : ∃ c, c < 64 ∧ (f[y] &&& spriteRow b x0).getMsbD c = true := by
                refine Classical.byContradiction fun hcon => ?_
                apply h
                apply BitVec.eq_of_getMsbD_eq
                intro i hi
                have hz : BitVec.getMsbD (0 : PixelRow) i = false := by simp [BitVec.getMsbD]
                rw [hz]
                refine Classical.byContradiction fun hne => ?_
                exact hcon ⟨i, hi, by simpa using hne⟩
              obtain ⟨c, hc, h⟩ := this
              rw [BitVec.getMsbD_and, Bool.and_eq_true] at h
              refine ⟨y, c, hy, hc, ?_, ?_⟩
              · rw [pf c hc]; exact h.1
              · rw [hb, if_pos rfl]; exact h.2
          · right
            rw [pixel_set _ _ hy _ _ _ hr hc] at h1
            by_cases h : r = y
            · subst h; rw [b0] at h2; cases h2
            · rw [if_neg h] at h1; exact ⟨r, c, hr, hc, h1, by rw [hb, if_neg h]; exact h2⟩
        · rintro (h | ⟨r, c, hr, hc, h1, h2⟩)
          · left; simp [h]
          · rw [hb] at h2
            by_cases h : r = y
            · subst h; left
              rw [pf c hc] at h1; rw [if_pos rfl] at h2
              simp only [Bool.or_eq_true, bne_iff_ne]; right
              intro h0
              have := congrArg (fun v => BitVec.getMsbD v c) h0
              simp [BitVec.getMsbD_and, h1, h2] at this
            · right; rw [if_neg h] at h2
              exact ⟨r, c, hr, hc, by rw [pixel_set _ _ hy _ _ _ hr hc, if_neg h]; exact h1, h2⟩
    · rename_i hy
      obtain ⟨i1, i2⟩ := ih (y + 1) f hit
      have e : ∀ r c, r < 32 → spriteRowsBit x0 (b :: bs) y r c = spriteRowsBit x0 bs (y + 1) r c := by
        intro r c hr; rw [hb, if_neg (by omega)]
      constructor
      · intro r c hr hc; rw [i1 r c hr hc, e r c hr]
      · rw [i2]
        constructor
        · rintro (h | ⟨r, c, hr, hc, h1, h2⟩)
          · exact .inl h
          · exact .inr ⟨r, c, hr, hc, h1, by rw [e r c hr]; exact h2⟩
        · rintro (h | ⟨r, c, hr, hc, h1, h2⟩)
          · exact .inl h
          · exact .inr ⟨r, c, hr, hc, h1, by rw [← e r c hr]; exact h2⟩

end Sys2Proof.Machine
end

