-- ==== Sys2Proof/Laws/Frame.lean ====
section
/-! SUPPORT. What each shared operation leaves unchanged, and how frames compose. -/

namespace Sys2Proof.Machine

/-- A frame after a frame. -/
theorem frame_trans {l : List Piece} {s t u : State} (h1 : frame l s t) (h2 : frame l t u) : frame l s u := by
  intro p hp
  have a := h1 p hp
  have b := h2 p hp
  cases p <;> simp_all [unchanged]

/-- A frame that allows more. -/
theorem frame_mono {l l' : List Piece} {s t : State} (h : frame l s t) (hl : ∀ p ∈ l, p ∈ l') : frame l' s t :=
  fun p hp => h p fun hc => hp (hl p hc)

/-- A register write changes only the registers. -/
theorem frame_setReg (s : State) (x : RegIdx) (v : Byte) : frame [.V] s (s.setReg x v) := by
  intro p hp
  cases p <;> simp_all [unchanged, State.setReg, State.readByte]

/-- A flag write under the policy changes only the registers. -/
theorem frame_setPolicyFlag (s : State) (b : Bool) : frame [.V] s (s.setPolicyFlag b) := by
  unfold State.setPolicyFlag
  split
  · exact frame_setReg _ _ _
  · intro p _; cases p <;> simp [unchanged]

/-- A skip changes only pc. -/
theorem frame_skipIf (s : State) (b : Bool) : frame [.pc] s (s.skipIf b) := by
  intro p hp
  unfold State.skipIf
  cases b <;> cases p <;> simp_all [unchanged, State.advance, State.reg, State.readByte]

/-- Another memory is all that `withMem` changes. -/
theorem frame_withMem (s : State) (m : List Host.Cell) : frame [.mem] s (s.withMem m) := by
  intro p hp
  cases p <;> simp_all [unchanged, State.reg]

/-- A read of an input port changes only the environment. -/
theorem frame_withEnv (s : State) (e : Env) : frame [.env] s (s.withEnv e) := by
  intro p hp
  cases p <;> simp_all [unchanged, State.reg, State.readByte]

/-- The halt entry writes the halt record and pc, and nothing else (spec 60_exceptions R265). -/
theorem State.takeHalt_spec (s : State) (c : HaltCause) (w a : Word) :
    frame [.halt, .pc] s (s.takeHalt c w a) ∧ haltedAt (s.takeHalt c w a) c w a := by
  refine ⟨?_, rfl, rfl, rfl, rfl, rfl⟩
  intro p hp
  cases p <;> simp_all [unchanged, State.takeHalt, State.reg, State.readByte]

/-- The only thing a block write changes is memory, in range or not. -/
theorem State.memWriteBytes_form (bs : List Byte) : ∀ (s t : State) (a : Nat), s.memWriteBytes a bs = some t →
    ∃ m, t = s.withMem m := by
  induction bs with
  | nil => intro s t a h; simp only [State.memWriteBytes, Option.some.injEq] at h; exact ⟨s.mem, h.symm⟩
  | cons b bs ih =>
    intro s t a h
    rw [State.memWriteBytes] at h
    split at h
    · cases h
    · rename_i u hu
      obtain ⟨m, rfl⟩ := ih _ _ _ h
      unfold State.memWrite at hu
      split at hu <;> cases hu
      exact ⟨m, rfl⟩

/-- One register write leaves every other register. -/
theorem sameRegsExcept_setReg (s : State) (x : RegIdx) (v : Byte) : sameRegsExcept [x] s (s.setReg x v) := by
  intro r hr; rw [State.reg_setReg, if_neg (by simpa using hr)]

/-- A register write and then a flag write leave every other register. -/
theorem sameRegsExcept_setFlag (s : State) (x : RegIdx) (v : Byte) (b : Bool) :
    sameRegsExcept [x, 0xF] s ((s.setReg x v).setFlag b) := by
  intro r hr
  simp only [List.mem_cons, List.not_mem_nil, or_false, not_or] at hr
  rw [State.setFlag, State.reg_setReg, if_neg hr.2, State.reg_setReg, if_neg hr.1]

/-- The flag write writes 1 or 0 into V[0xF] and leaves every other register. -/
theorem State.reg_setFlag (s : State) (b : Bool) (r : RegIdx) :
    (s.setFlag b).reg r = if r = 0xF then flagByte b else s.reg r := State.reg_setReg _ _ _ _

/-- The flag as a number. -/
theorem flagByte_toNat (b : Bool) : (flagByte b).toNat = if b then 1 else 0 := by cases b <;> rfl

/-- The block of FX55 has one byte per register it stores. -/
theorem State.firstRegs_length (s : State) (l : RegIdx) : (s.firstRegs l).length = l.toNat + 1 := by
  have := l.isLt
  simp only [State.firstRegs, List.length_take, Vector.length_toList]; omega

end Sys2Proof.Machine
end

