-- ==== Sys2Proof/Laws/Load.lean ====
section
/-! SUPPORT. What the load of an image leaves in memory. -/

namespace Sys2Proof.Machine

/-- Any byte after a load: the image's byte inside it, the old byte outside. -/
theorem Memory.read_load (d : Nat → Byte) (bs : List Byte) : ∀ (m : List Host.Cell) (base a : Nat),
    Memory.read d (Memory.load d m base bs) a
      = if base ≤ a ∧ a < base + bs.length then bs.getD (a - base) 0 else Memory.read d m a := by
  induction bs with
  | nil => intro m base a; rw [if_neg (by simp only [List.length_nil]; omega)]; rfl
  | cons b bs ih =>
    intro m base a
    rw [Memory.load, ih, Memory.read_write]
    simp only [List.length_cons]
    by_cases h1 : a = base
    · subst h1; rw [if_neg (by omega), if_pos rfl, if_pos (by omega)]; simp
    · by_cases h2 : base + 1 ≤ a ∧ a < base + 1 + bs.length
      · rw [if_pos h2, if_pos (by omega)]
        obtain ⟨j, rfl⟩ : ∃ j, a = base + 1 + j := ⟨a - (base + 1), by omega⟩
        have e : base + 1 + j - base = j + 1 := by omega
        rw [e]; simp
      · rw [if_neg h2, if_neg h1, if_neg (by omega)]

/-- A load inside the memory keeps the canonical form. -/
theorem Memory.wf_load (d : Nat → Byte) (bs : List Byte) : ∀ (m : List Host.Cell) (base : Nat),
    base + bs.length ≤ memSize → Memory.wf d m → Memory.wf d (Memory.load d m base bs) := by
  induction bs with
  | nil => intro m base _ h; exact h
  | cons b bs ih =>
    intro m base hb h
    simp only [List.length_cons] at hb
    exact ih _ _ (by omega) (Memory.wf_write _ _ _ _ h (by omega))

end Sys2Proof.Machine
end

