-- ==== Sys2Proof/Laws/PerInstr.lean ====
section
/-! SUPPORT. One law per constructor: the word the encoder writes has, under the mask of the instruction's row of the
opcode map, the row's match (spec 30_encoding R96). -/

namespace Sys2Proof

/-- AND of two joined words, part by part. -/
theorem append_and_append {m n : Nat} (a c : BitVec m) (b d : BitVec n) :
    (a ++ b) &&& (c ++ d) = (a &&& c) ++ (b &&& d) := by
  apply BitVec.eq_of_getLsbD_eq
  intro i _
  simp only [BitVec.getLsbD_and, BitVec.getLsbD_append]
  split <;> rfl

/-- The layout OP NNN under the mask of OP. -/
theorem row_NNN (op : BitVec 4) (nnn : Addr12) : wordNNN op nnn &&& 0xF000 = op ++ 0#12 := by
  rw [wordNNN, show (0xF000 : Word) = 15#4 ++ 0#12 from rfl, append_and_append, BitVec.and_zero,
    show 15#4 = BitVec.allOnes 4 from rfl, BitVec.and_allOnes]

/-- The layout OP X NN under the mask of OP. -/
theorem row_XNN_op (op : BitVec 4) (x : RegIdx) (nn : Byte) :
    wordXNN op x nn &&& 0xF000 = (op ++ 0#4) ++ 0#8 := by
  rw [wordXNN, show (0xF000 : Word) = (15#4 ++ 0#4) ++ 0#8 from rfl,
    append_and_append, append_and_append, BitVec.and_zero, BitVec.and_zero,
    show 15#4 = BitVec.allOnes 4 from rfl, BitVec.and_allOnes]

/-- The layout OP X NN under the mask of OP and NN. -/
theorem row_XNN (op : BitVec 4) (x : RegIdx) (nn : Byte) :
    wordXNN op x nn &&& 0xF0FF = (op ++ 0#4) ++ nn := by
  rw [wordXNN, show (0xF0FF : Word) = (15#4 ++ 0#4) ++ 255#8 from rfl,
    append_and_append, append_and_append, BitVec.and_zero, show 15#4 = BitVec.allOnes 4 from rfl,
    show 255#8 = BitVec.allOnes 8 from rfl, BitVec.and_allOnes, BitVec.and_allOnes]

/-- The layout OP X Y N under the mask of OP. -/
theorem row_XYN_op (op : BitVec 4) (x y : RegIdx) (n : Nibble) :
    wordXYN op x y n &&& 0xF000 = (op ++ 0#4) ++ 0#8 := row_XNN_op op x (y ++ n)

/-- The layout OP X Y N under the mask of OP and N. -/
theorem row_XYN (op : BitVec 4) (x y : RegIdx) (n : Nibble) :
    wordXYN op x y n &&& 0xF00F = (op ++ 0#4) ++ (0#4 ++ n) := by
  rw [wordXYN, show (0xF00F : Word) = (15#4 ++ 0#4) ++ (0#4 ++ 15#4) from rfl,
    append_and_append, append_and_append, append_and_append, BitVec.and_zero, BitVec.and_zero,
    show 15#4 = BitVec.allOnes 4 from rfl, BitVec.and_allOnes, BitVec.and_allOnes]

end Sys2Proof

open Sys2Proof

/-- The word of an instruction selects the instruction's own row. -/
def Sys2Proof.Laws.EncodeRow.Statement (i : Instr) : Prop := encode i &&& i.opRow.mask = i.opRow.pat

theorem Sys2Proof.Laws.EncodeRow.cls :
    Sys2Proof.Laws.EncodeRow.Statement (.cls) := rfl

theorem Sys2Proof.Laws.EncodeRow.ret :
    Sys2Proof.Laws.EncodeRow.Statement (.ret) := rfl

theorem Sys2Proof.Laws.EncodeRow.jp (nnn : Addr12) :
    Sys2Proof.Laws.EncodeRow.Statement (.jp nnn) := row_NNN _ _

theorem Sys2Proof.Laws.EncodeRow.call (nnn : Addr12) :
    Sys2Proof.Laws.EncodeRow.Statement (.call nnn) := row_NNN _ _

theorem Sys2Proof.Laws.EncodeRow.seByte (x : RegIdx) (nn : Byte) :
    Sys2Proof.Laws.EncodeRow.Statement (.seByte x nn) := row_XNN_op _ _ _

theorem Sys2Proof.Laws.EncodeRow.sneByte (x : RegIdx) (nn : Byte) :
    Sys2Proof.Laws.EncodeRow.Statement (.sneByte x nn) := row_XNN_op _ _ _

theorem Sys2Proof.Laws.EncodeRow.seReg (x y : RegIdx) :
    Sys2Proof.Laws.EncodeRow.Statement (.seReg x y) := row_XYN _ _ _ _

theorem Sys2Proof.Laws.EncodeRow.ldByte (x : RegIdx) (nn : Byte) :
    Sys2Proof.Laws.EncodeRow.Statement (.ldByte x nn) := row_XNN_op _ _ _

theorem Sys2Proof.Laws.EncodeRow.addByte (x : RegIdx) (nn : Byte) :
    Sys2Proof.Laws.EncodeRow.Statement (.addByte x nn) := row_XNN_op _ _ _

theorem Sys2Proof.Laws.EncodeRow.ldReg (x y : RegIdx) :
    Sys2Proof.Laws.EncodeRow.Statement (.ldReg x y) := row_XYN _ _ _ _

theorem Sys2Proof.Laws.EncodeRow.orReg (x y : RegIdx) :
    Sys2Proof.Laws.EncodeRow.Statement (.orReg x y) := row_XYN _ _ _ _

theorem Sys2Proof.Laws.EncodeRow.andReg (x y : RegIdx) :
    Sys2Proof.Laws.EncodeRow.Statement (.andReg x y) := row_XYN _ _ _ _

theorem Sys2Proof.Laws.EncodeRow.xorReg (x y : RegIdx) :
    Sys2Proof.Laws.EncodeRow.Statement (.xorReg x y) := row_XYN _ _ _ _

theorem Sys2Proof.Laws.EncodeRow.addReg (x y : RegIdx) :
    Sys2Proof.Laws.EncodeRow.Statement (.addReg x y) := row_XYN _ _ _ _

theorem Sys2Proof.Laws.EncodeRow.subReg (x y : RegIdx) :
    Sys2Proof.Laws.EncodeRow.Statement (.subReg x y) := row_XYN _ _ _ _

theorem Sys2Proof.Laws.EncodeRow.shr (x y : RegIdx) :
    Sys2Proof.Laws.EncodeRow.Statement (.shr x y) := row_XYN _ _ _ _

theorem Sys2Proof.Laws.EncodeRow.subnReg (x y : RegIdx) :
    Sys2Proof.Laws.EncodeRow.Statement (.subnReg x y) := row_XYN _ _ _ _

theorem Sys2Proof.Laws.EncodeRow.shl (x y : RegIdx) :
    Sys2Proof.Laws.EncodeRow.Statement (.shl x y) := row_XYN _ _ _ _

theorem Sys2Proof.Laws.EncodeRow.sneReg (x y : RegIdx) :
    Sys2Proof.Laws.EncodeRow.Statement (.sneReg x y) := row_XYN _ _ _ _

theorem Sys2Proof.Laws.EncodeRow.ldI (nnn : Addr12) :
    Sys2Proof.Laws.EncodeRow.Statement (.ldI nnn) := row_NNN _ _

theorem Sys2Proof.Laws.EncodeRow.jpV0 (nnn : Addr12) :
    Sys2Proof.Laws.EncodeRow.Statement (.jpV0 nnn) := row_NNN _ _

theorem Sys2Proof.Laws.EncodeRow.rnd (x : RegIdx) (nn : Byte) :
    Sys2Proof.Laws.EncodeRow.Statement (.rnd x nn) := row_XNN_op _ _ _

theorem Sys2Proof.Laws.EncodeRow.drw (x y : RegIdx) (n : Nibble) :
    Sys2Proof.Laws.EncodeRow.Statement (.drw x y n) := row_XYN_op _ _ _ _

theorem Sys2Proof.Laws.EncodeRow.skp (x : RegIdx) :
    Sys2Proof.Laws.EncodeRow.Statement (.skp x) := row_XNN _ _ _

theorem Sys2Proof.Laws.EncodeRow.sknp (x : RegIdx) :
    Sys2Proof.Laws.EncodeRow.Statement (.sknp x) := row_XNN _ _ _

theorem Sys2Proof.Laws.EncodeRow.ldVxDT (x : RegIdx) :
    Sys2Proof.Laws.EncodeRow.Statement (.ldVxDT x) := row_XNN _ _ _

theorem Sys2Proof.Laws.EncodeRow.ldVxK (x : RegIdx) :
    Sys2Proof.Laws.EncodeRow.Statement (.ldVxK x) := row_XNN _ _ _

theorem Sys2Proof.Laws.EncodeRow.ldDTVx (x : RegIdx) :
    Sys2Proof.Laws.EncodeRow.Statement (.ldDTVx x) := row_XNN _ _ _

theorem Sys2Proof.Laws.EncodeRow.ldSTVx (x : RegIdx) :
    Sys2Proof.Laws.EncodeRow.Statement (.ldSTVx x) := row_XNN _ _ _

theorem Sys2Proof.Laws.EncodeRow.addI (x : RegIdx) :
    Sys2Proof.Laws.EncodeRow.Statement (.addI x) := row_XNN _ _ _

theorem Sys2Proof.Laws.EncodeRow.ldF (x : RegIdx) :
    Sys2Proof.Laws.EncodeRow.Statement (.ldF x) := row_XNN _ _ _

theorem Sys2Proof.Laws.EncodeRow.ldB (x : RegIdx) :
    Sys2Proof.Laws.EncodeRow.Statement (.ldB x) := row_XNN _ _ _

theorem Sys2Proof.Laws.EncodeRow.storeRegs (x : RegIdx) :
    Sys2Proof.Laws.EncodeRow.Statement (.storeRegs x) := row_XNN _ _ _

theorem Sys2Proof.Laws.EncodeRow.loadRegs (x : RegIdx) :
    Sys2Proof.Laws.EncodeRow.Statement (.loadRegs x) := row_XNN _ _ _
end

