-- ==== Sys2Proof/Laws/Step.lean ====
section
/-! SUPPORT. What a step can do before and after the execute phase, said once. -/

namespace Sys2Proof.Machine

/-- The pc range check as numbers (spec 40_step_cycle R122). -/
theorem State.pcInRange_iff (s : State) :
    s.pcInRange = true ↔ 512 ≤ s.pc.toNat ∧ s.pc.toNat ≤ 512 + s.imageSize := by
  unfold State.pcInRange; rw [Bool.and_eq_true, decide_eq_true_iff, decide_eq_true_iff]; rfl

/-- The four ways the phases before the decode end, with the condition of each. -/
theorem fetchPhase_cases (s : State) :
    (s.quitAnswer = true ∧ fetchPhase s = .halt (s.afterQuit.takeHalt .quit 0 s.pc))
      ∨ (s.quitAnswer = false ∧ s.pcInRange = false
          ∧ fetchPhase s = .halt (s.afterQuit.takeHalt .pcRange 0 s.pc))
      ∨ (s.quitAnswer = false ∧ s.pcInRange = true ∧ s.fetchWord = none
          ∧ fetchPhase s = .halt (s.afterQuit.takeHalt .memRange 0 s.pc))
      ∨ ∃ w, s.quitAnswer = false ∧ s.pcInRange = true ∧ s.fetchWord = some w
          ∧ fetchPhase s = .word w s.afterQuit := by
  unfold fetchPhase
  cases s.quitAnswer <;> cases s.pcInRange <;> cases s.fetchWord <;> simp

/-- A machine that steps was running. -/
theorem step_running {s t : State} (h : step s = .next t) : s.run = .running := by
  unfold step at h
  cases hr : s.run
  · rfl
  · rw [hr] at h; cases h

/-- The execute phase of every instruction ends in a next state, a halt among them: none faults, none is refused. -/
theorem exec_next (i : Instr) (s : State) : ∃ t, exec i s = .next t := by
  cases i
  case ret => simp only [exec, execRet, haltInstr]; split <;> exact ⟨_, rfl⟩
  case call => simp only [exec, execCall, haltInstr]; split <;> exact ⟨_, rfl⟩
  case drw => simp only [exec, execDrw, haltInstr]; split <;> exact ⟨_, rfl⟩
  case ldB => simp only [exec, execLdB, haltInstr]; split <;> exact ⟨_, rfl⟩
  case storeRegs => simp only [exec, execStoreRegs, haltInstr]; split <;> exact ⟨_, rfl⟩
  case loadRegs => simp only [exec, execLoadRegs, haltInstr]; split <;> exact ⟨_, rfl⟩
  all_goals exact ⟨_, rfl⟩

/-- The end of a step that halted changes nothing. -/
theorem finishStep_halted {u : State} (h : u.run = .halted) : finishStep u = u := by simp [finishStep, h]

/-- The end of a step that runs on decays both timers, the delay timer first. -/
theorem finishStep_running {u : State} (h : u.run = .running) :
    finishStep u = u.timerDecayDT.timerDecayST := by simp [finishStep, h]

/-- The end of a step touches only the timers and the environment. -/
theorem frame_finishStep (u : State) : frame [.DT, .ST, .env] u (finishStep u) := by
  intro p hp
  unfold finishStep
  split <;> cases p <;>
    simp_all [unchanged, State.timerDecayDT, State.timerDecayST, State.afterNow, State.reg, State.readByte]

/-- The end of a step leaves memory as data. -/
theorem finishStep_mem (u : State) : (finishStep u).mem = u.mem := by unfold finishStep; split <;> rfl

/-- Both timers and the clock after a step that runs on. -/
theorem finishStep_timers {u : State} (h : u.run = .running) :
    (finishStep u).DT = u.DT.decay u.cfg.tickUs u.now ∧ (finishStep u).ST = u.ST.decay u.cfg.tickUs u.afterNow.now
      ∧ (finishStep u).env.clock = u.afterNow.now := by
  rw [finishStep_running h]; exact ⟨rfl, rfl, rfl⟩

/-- In the execute phase, pc less 2 is the pc of the step's start. -/
theorem State.advance_pc_sub (s : State) : s.afterQuit.advance.pc - 2 = s.pc := by
  exact BitVec.add_sub_cancel _ _

end Sys2Proof.Machine
end

