-- ==== Sys2Proof/Tests/Slice0.lean ====
section
/-! SUPPORT. The model's own tests. Every expected value is a vector of spec/95_test_vectors.md (its name stands in the
test's comment) or a row of 30_encoding R96 or R100; each test is about one step, one decode or one operation. The last
part shows, for every statement that has hypotheses, a state and operands that meet them. -/

namespace Sys2Proof.Tests

open Sys2Proof Sys2Proof.Machine

/-! ## Helpers -/

/-- The result is a next state with a property. -/
def ran (r : Result) (p : State → Bool) : Bool :=
  match r with
  | .next t => p t
  | .fault _ => false
  | .refused _ => false

theorem ran_next {r : Result} {p : State → Bool} (h : ran r p = true) : ∃ t, r = .next t ∧ p t = true := by
  cases r with
  | next t => exact ⟨t, rfl, h⟩
  | fault _ => cases h
  | refused _ => cases h

/-- One step of a state with a word placed at its pc (95_test_vectors: a word at 0x0200, one step). -/
def run1 (s : State) (w : Nat) : Result := step (s.withFetchWord 16 w)

/-- The reset state with some registers set. -/
def regs (xs : List (RegIdx × Byte)) : State := xs.foldl (fun s p => s.setReg p.1 p.2) State.reset

/-- `s` with I set and bytes written from I on. -/
def bytesAt (s : State) (i : Word) (bs : List Byte) : State :=
  { s with I := i, mem := Memory.load (unlisted s.cfg) s.mem i.toNat bs }

/-- V[i] = i + 1. -/
def counting : State := { State.reset with V := Vector.ofFn fun k => BitVec.ofNat 8 (k.val + 1) }

/-- Other parameters. -/
def underReference (s : State) : State := { s with cfg := { s.cfg with flagPolicy := .reference } }
def underWrap (s : State) : State := { s with cfg := { s.cfg with oobPolicy := .wrap } }
def underThroughX (s : State) : State := { s with cfg := { s.cfg with regBlock := .throughX } }

/-- The answers of the clock: the times between its reads. -/
def clocked (s : State) (clock : Nat) (between : List Nat) : State :=
  { s with env := { s.env with clock := clock, elapsed := ⟨between, 0⟩ } }

/-- The keys that are down. -/
def keysDown (s : State) (k : BitVec 16) : State := { s with env := { s.env with keys := ⟨[k], 0⟩ } }

/-- The next answer of `KeyWait()`. -/
def waiting (s : State) (k : Option KeyCode) : State := { s with env := { s.env with keyWait := ⟨[k], 0⟩ } }

/-- A state about to step with no word placed: pc, image size and the quit answer are given. -/
def ready (pc : Word) (size : Nat) (quit : Bool) : State :=
  { State.reset with pc := pc, imageSize := size, env := { Env.reset with quit := ⟨[quit], 0⟩ } }

/-- The halt record of a state, with its pc. -/
def record (t : State) : RunState × BitVec 3 × Word × Word × Word :=
  (t.run, t.haltCause.code, t.haltOpcode, t.haltAddr, t.pc)

/-! ## Well-formedness and decoding -/

/-- Words of every family that R100 lists (E3 to E9) are refused. -/
theorem test_wellFormed_refuses :
    [0x0000, 0x00E1, 0x01E0, 0x0123, 0x0FFF].all (fun w => !legalWord w) = true
      ∧ [0x5121, 0x512F, 0x9121].all (fun w => !legalWord w) = true
      ∧ [0x8128, 0x8129, 0x812A, 0x812B, 0x812C, 0x812D, 0x812F].all (fun w => !legalWord w) = true
      ∧ [0xE100, 0xE19F, 0xE1FF].all (fun w => !legalWord w) = true
      ∧ [0xF100, 0xF108, 0xF130, 0xF175, 0xF185, 0xF1FF].all (fun w => !legalWord w) = true := by decide

/-- The decoder refuses the same words. -/
theorem test_decode_refuses :
    [0x0000, 0x00E1, 0x01E0, 0x0123, 0x0FFF, 0x5121, 0x512F, 0x9121].all (fun w => decodeWord w == none) = true
      ∧ [0x8128, 0x8129, 0x812A, 0x812B, 0x812C, 0x812D, 0x812F].all (fun w => decodeWord w == none) = true
      ∧ [0xE100, 0xE19F, 0xE1FF, 0xF100, 0xF108, 0xF130, 0xF175, 0xF185, 0xF1FF].all (fun w => decodeWord w == none)
        = true := by decide

/-- The refusals have names. -/
theorem test_decode_names_refusals :
    decode [0x51, 0x21, 0x00] = .error (.illegal 0x5121) ∧ decode [0x12] = .error .truncated := ⟨rfl, rfl⟩

/-- Well-formed instructions and legal words are accepted. -/
theorem test_wellFormed_accepts : (Instr.drw 0xF 0xF 0xF).wellFormed = true ∧ legalWord 0xD000 = true := by decide

/-- R96 rows 1 to 4, 20, 21, written out (E1, E2, F1, F4, F9, M1). -/
theorem test_decode_flow :
    decodeWord 0b0000000011100000 = some .cls
      ∧ decodeWord 0b0000000011101110 = some .ret
      ∧ decodeWord 0b0001001000001000 = some (.jp 0x208)
      ∧ decodeWord 0b0010001100000000 = some (.call 0x300)
      ∧ decodeWord 0b1010001000101010 = some (.ldI 0x22A)
      ∧ decodeWord 0b1011111111111111 = some (.jpV0 0xFFF) := by decide

/-- R96 rows 5 to 7 and 19 (K1, K3, E4, E5). -/
theorem test_decode_skip :
    decodeWord 0b0011001100101010 = some (.seByte 3 0x2A)
      ∧ decodeWord 0b0100001100101010 = some (.sneByte 3 0x2A)
      ∧ decodeWord 0b0101000100100000 = some (.seReg 1 2)
      ∧ decodeWord 0b1001000100100000 = some (.sneReg 1 2) := by decide

/-- R96 rows 8 to 18 and 22 (A1, A2, A4 to A9, A14, A19, E6, A29). -/
theorem test_decode_alu :
    decodeWord 0b0110101000101100 = some (.ldByte 0xA 0x2C)
      ∧ decodeWord 0b0111001100000001 = some (.addByte 3 0x01)
      ∧ decodeWord 0b1000000100100000 = some (.ldReg 1 2)
      ∧ decodeWord 0b1000000100100001 = some (.orReg 1 2)
      ∧ decodeWord 0b1000000100100010 = some (.andReg 1 2)
      ∧ decodeWord 0b1000000100100011 = some (.xorReg 1 2)
      ∧ decodeWord 0b1000000100100100 = some (.addReg 1 2)
      ∧ decodeWord 0b1000000100100101 = some (.subReg 1 2)
      ∧ decodeWord 0b1000000100100110 = some (.shr 1 2)
      ∧ decodeWord 0b1000000100100111 = some (.subnReg 1 2)
      ∧ decodeWord 0b1000000100101110 = some (.shl 1 2)
      ∧ decodeWord 0b1100010100001111 = some (.rnd 5 0x0F) := by decide

/-- R96 row 23 (E10, E11). -/
theorem test_decode_display :
    decodeWord 0b1101000100101111 = some (.drw 1 2 0xF) ∧ decodeWord 0xD000 = some (.drw 0 0 0) := by decide

/-- R96 rows 24 to 34 (E7, E8). -/
theorem test_decode_low_byte :
    decodeWord 0b1110000110011110 = some (.skp 1)
      ∧ decodeWord 0b1110000110100001 = some (.sknp 1)
      ∧ decodeWord 0b1111000100000111 = some (.ldVxDT 1)
      ∧ decodeWord 0b1111000100001010 = some (.ldVxK 1)
      ∧ decodeWord 0b1111000100010101 = some (.ldDTVx 1)
      ∧ decodeWord 0b1111000100011000 = some (.ldSTVx 1)
      ∧ decodeWord 0b1111000100011110 = some (.addI 1)
      ∧ decodeWord 0b1111000100101001 = some (.ldF 1)
      ∧ decodeWord 0b1111000100110011 = some (.ldB 1)
      ∧ decodeWord 0b1111000101010101 = some (.storeRegs 1)
      ∧ decodeWord 0b1111000101100101 = some (.loadRegs 1) := by decide

/-- E12: the byte at the lower address is the high one. -/
theorem test_decode_big_endian : decode [0xA2, 0xF0] = .ok (.ldI 0x2F0, []) := rfl

/-- The encoder on one word of each layout. -/
theorem test_encode :
    encode (.jp 0x208) = 0x1208 ∧ encode (.seByte 3 0x2A) = 0x332A ∧ encode (.drw 1 2 0xF) = 0xD12F
      ∧ encodeBytes (.loadRegs 1) = [0xF1, 0x65] := by decide

/-! ## Reset (Z1 to Z3, S9, S10) -/

/-- Z1. -/
theorem test_reset_font :
    [49, 50, 54, 55, 129, 130].map State.reset.readByte = [0x00, 0xF0, 0xF0, 0x20, 0x80, 0x00] := by decide

/-- Z2. -/
theorem test_reset_image :
    [0x200, 0x201, 0x202].map (resetWith hardwareConfig [0xA2, 0xF0]).readByte = [0xA2, 0xF0, 0x00] := by decide

/-- Z3. -/
theorem test_reset_registers :
    State.reset.pc = 0x200 ∧ State.reset.sp = 0 ∧ State.reset.I = 0 ∧ State.reset.V = Vector.replicate 16 0
      ∧ State.reset.DT.count = 0 ∧ State.reset.ST.count = 0 ∧ State.reset.fb = Vector.replicate 32 0
      ∧ State.reset.run = .running ∧ State.reset.haltCause.code = 0 := by decide

/-- S9. -/
theorem test_reset_largest_image :
    (resetWith hardwareConfig (List.replicate 3584 0)).run = .running
      ∧ (resetWith hardwareConfig (List.replicate 3584 0)).imageSize = 3584 := by
  have h : (List.replicate 3584 (0 : Byte)).length ≤ maxImage := by rw [List.length_replicate]; decide
  rw [resetWith, if_pos h, List.length_replicate]; exact ⟨rfl, rfl⟩

/-- S9. -/
theorem test_reset_too_large :
    (resetWith hardwareConfig (List.replicate 3585 0)).run = .halted
      ∧ (resetWith hardwareConfig (List.replicate 3585 0)).haltCause.code = 7
      ∧ (resetWith hardwareConfig (List.replicate 3585 0)).imageSize = 0 := by
  have h : ¬ (List.replicate 3585 (0 : Byte)).length ≤ maxImage := by rw [List.length_replicate]; decide
  rw [resetWith, if_neg h]; exact ⟨rfl, rfl, rfl⟩

/-- S10. -/
theorem test_exit_classes :
    [HaltCause.quit, .pcRange].all (fun c => c.exitClass == some .success) = true
      ∧ [HaltCause.decode, .stackOverflow, .stackUnderflow, .memRange, .imageTooLarge].all
          (fun c => c.exitClass == some .failure) = true := by decide

/-! ## The step (H1 to H9, H11) -/

/-- H1. -/
theorem test_step_quit_first :
    ran (step (ready 0x0000 4 true)) (fun t => record t == (.halted, 1, 0x0000, 0x0000, 0x0000)) = true := by decide

/-- H2 and H4. -/
theorem test_step_pc_range :
    ran (step (ready 0x01FE 4 false)) (fun t => record t == (.halted, 2, 0x0000, 0x01FE, 0x01FE)) = true
      ∧ ran (step (ready 0x0205 4 false)) (fun t => record t == (.halted, 2, 0x0000, 0x0205, 0x0205)) = true := by
  decide

/-- H3: the end of the image passes the range check. -/
theorem test_step_pc_range_end :
    ran (step (ready 0x0204 4 false)) (fun t => record t == (.halted, 3, 0x0000, 0x0204, 0x0204)) = true := by decide

/-- H6 and H7. -/
theorem test_step_fetch_beyond :
    ran (step (ready 4096 3584 false)) (fun t => record t == (.halted, 6, 0x0000, 0x1000, 0x1000)) = true
      ∧ ran (step (ready 4095 3584 false)) (fun t => record t == (.halted, 6, 0x0000, 0x0FFF, 0x0FFF)) = true := by
  decide

/-- H8: no alignment rule. -/
theorem test_step_odd_pc :
    ran (run1 { State.reset with pc := 0x201, imageSize := 8 } 0x6007) (fun t => t.reg 0 == 7 && t.pc == 0x203) = true := by
  decide

/-- H9. -/
theorem test_step_empty_image :
    ran (step (ready 0x0200 0 false)) (fun t => record t == (.halted, 3, 0x0000, 0x0200, 0x0200)) = true := by decide

/-- The halting decode vector: word 0x5121. -/
theorem test_step_illegal :
    ran (run1 State.reset 0x5121) (fun t => record t == (.halted, 3, 0x5121, 0x0200, 0x0200)) = true := by decide

/-- T6 and T8, through a step of 6000: both timers decay at its end. -/
theorem test_step_decays :
    ran (run1 (clocked { State.reset with DT := ⟨2, 10000, 100000⟩, ST := ⟨5, 0, 140000⟩ } 100000 [40000, 0]) 0x6000)
      (fun t => t.DT == ⟨0, 16666, 140000⟩ && t.ST == ⟨5, 0, 140000⟩) = true := by decide

/-- T7 and S2. -/
theorem test_decay : (Timer.mk 200 0 0).decay 16667 1000000 = ⟨141, 16647, 1000000⟩
    ∧ (Timer.mk 0 500 0).decay 16667 1000000 = ⟨0, 0, 1000000⟩ := by decide

/-- S1. -/
theorem test_decay_duration : ((Timer.set 255 0).decay 16667 4250084).count = 1
    ∧ ((Timer.set 255 0).decay 16667 4250085).count = 0 := by decide +kernel

/-- A halted machine has no step (R127). -/
theorem test_step_halted : step { State.reset with run := .halted, haltCause := .quit } = .fault .halted := rfl

/-! ## Control transfer -/

/-- F1 and F2. -/
theorem test_jp : ran (run1 State.reset 0x1208) (fun t => t.pc == 0x208) = true
    ∧ ran (run1 State.reset 0x1200) (fun t => t.pc == 0x200) = true := by decide

/-- F4 and F5. -/
theorem test_call :
    ran (run1 State.reset 0x2300) (fun t => t.stack.getD 0 0 == 0x202 && t.sp == 1 && t.pc == 0x300) = true
      ∧ ran (run1 { State.reset with sp := 47 } 0x2300)
          (fun t => t.stack.getD 47 0 == 0x202 && t.sp == 48 && t.pc == 0x300) = true := by decide

/-- F6. -/
theorem test_call_overflow :
    ran (run1 { State.reset with sp := 48 } 0x2300)
      (fun t => record t == (.halted, 4, 0x2300, 0x0200, 0x0200) && t.sp == 48) = true := by decide

/-- F7. -/
theorem test_ret :
    ran (run1 { State.reset with sp := 1, stack := State.reset.stack.set 0 0x204 } 0x00EE)
      (fun t => t.pc == 0x204 && t.sp == 0) = true := by decide

/-- F8. -/
theorem test_ret_underflow :
    ran (run1 State.reset 0x00EE) (fun t => record t == (.halted, 5, 0x00EE, 0x0200, 0x0200)) = true := by decide

/-- F10 and F11. -/
theorem test_jpV0 : ran (run1 (regs [(0, 0xFF)]) 0xBFFF) (fun t => t.pc == 0x10FE) = true
    ∧ ran (run1 (regs [(0, 4), (2, 0x50)]) 0xB200) (fun t => t.pc == 0x204) = true := by decide

/-! ## Skips -/

/-- K1, K2 and K10. -/
theorem test_seByte : ran (run1 (regs [(3, 0x2A)]) 0x332A) (fun t => t.pc == 0x204) = true
    ∧ ran (run1 (regs [(3, 0x2B)]) 0x332A) (fun t => t.pc == 0x202) = true
    ∧ ran (run1 (regs [(0xF, 1)]) 0x3F01) (fun t => t.pc == 0x204) = true := by decide

/-- K3 and K4. -/
theorem test_sneByte : ran (run1 (regs [(3, 0x2A)]) 0x432A) (fun t => t.pc == 0x202) = true
    ∧ ran (run1 (regs [(3, 0x00)]) 0x432A) (fun t => t.pc == 0x204) = true := by decide

/-- K5, K6 and K7. -/
theorem test_seReg : ran (run1 (regs [(1, 7), (2, 7)]) 0x5120) (fun t => t.pc == 0x204) = true
    ∧ ran (run1 (regs [(1, 7), (2, 8)]) 0x5120) (fun t => t.pc == 0x202) = true
    ∧ ran (run1 (regs [(4, 9)]) 0x5440) (fun t => t.pc == 0x204) = true := by decide

/-- K8 and K9. -/
theorem test_sneReg : ran (run1 (regs [(1, 7), (2, 8)]) 0x9120) (fun t => t.pc == 0x204) = true
    ∧ ran (run1 (regs [(4, 9)]) 0x9440) (fun t => t.pc == 0x202) = true := by decide

/-- K11, K12 and K14. -/
theorem test_skp : ran (run1 (keysDown (regs [(2, 0x05)]) 0x0020) 0xE29E) (fun t => t.pc == 0x204) = true
    ∧ ran (run1 (keysDown (regs [(2, 0x05)]) 0xFFDF) 0xE29E) (fun t => t.pc == 0x202) = true
    ∧ ran (run1 (keysDown (regs [(2, 0xF5)]) 0x0020) 0xE29E) (fun t => t.pc == 0x204) = true := by decide

/-- K13. -/
theorem test_sknp : ran (run1 (keysDown (regs [(2, 0x05)]) 0xFFDF) 0xE2A1) (fun t => t.pc == 0x204) = true := by decide

/-! ## Load, arithmetic, logic, shift, random -/

/-- A1. -/
theorem test_ldByte : ran (run1 State.reset 0x6A2C) (fun t => t.reg 0xA == 0x2C && t.pc == 0x202) = true := by decide

/-- A2 (S6) and A3. -/
theorem test_addByte : ran (run1 (regs [(3, 0xFF), (0xF, 7)]) 0x7301) (fun t => t.reg 3 == 0 && t.reg 0xF == 7) = true
    ∧ ran (run1 (regs [(0xF, 0xFF)]) 0x7F01) (fun t => t.reg 0xF == 0) = true := by decide

/-- A4. -/
theorem test_ldReg : ran (run1 (regs [(2, 0x5A)]) 0x8120) (fun t => t.reg 1 == 0x5A) = true := by decide

/-- A5. -/
theorem test_orReg : ran (run1 (regs [(1, 0xF0), (2, 0x0F), (0xF, 9)]) 0x8121)
    (fun t => t.reg 1 == 0xFF && t.reg 0xF == 9) = true := by decide

/-- A6. -/
theorem test_andReg : ran (run1 (regs [(1, 0xF3), (2, 0x3C)]) 0x8122) (fun t => t.reg 1 == 0x30) = true := by decide

/-- A7 and A8. -/
theorem test_xorReg : ran (run1 (regs [(1, 0xF3), (2, 0x3C)]) 0x8123) (fun t => t.reg 1 == 0xCF) = true
    ∧ ran (run1 (regs [(1, 0x33)]) 0x8113) (fun t => t.reg 1 == 0) = true := by decide

/-- A9, A12 and A13, canonical. -/
theorem test_addReg :
    ran (run1 (regs [(1, 0xF0), (2, 0x20)]) 0x8124) (fun t => t.reg 1 == 0x10 && t.reg 0xF == 1) = true
      ∧ ran (run1 (regs [(0xF, 0xFF), (1, 1)]) 0x8F14) (fun t => t.reg 0xF == 1) = true
      ∧ ran (run1 (regs [(1, 0x10), (0xF, 5)]) 0x81F4) (fun t => t.reg 1 == 0x15 && t.reg 0xF == 0) = true := by decide

/-- A10 and A12, reference. -/
theorem test_addReg_reference :
    ran (run1 (underReference (regs [(1, 1), (2, 2), (0xF, 7)])) 0x8124) (fun t => t.reg 1 == 3 && t.reg 0xF == 7) = true
      ∧ ran (run1 (underReference (regs [(0xF, 0xFF), (1, 1)])) 0x8F14) (fun t => t.reg 0xF == 0) = true := by decide

/-- A14 and A15. -/
theorem test_subReg :
    ran (run1 (regs [(1, 0x10), (2, 0x20)]) 0x8125) (fun t => t.reg 1 == 0xF0 && t.reg 0xF == 0) = true
      ∧ ran (run1 (regs [(1, 0x20), (2, 0x20)]) 0x8125) (fun t => t.reg 1 == 0 && t.reg 0xF == 1) = true := by decide

/-- A16, A17 and A18: V[0xF] as destination and as source. -/
theorem test_subReg_flag : ran (run1 (regs [(0xF, 5), (1, 3)]) 0x8F15) (fun t => t.reg 0xF == 1) = true
    ∧ ran (run1 (regs [(0xF, 3), (1, 5)]) 0x8F15) (fun t => t.reg 0xF == 0) = true
    ∧ ran (run1 (regs [(1, 0x10), (0xF, 1)]) 0x81F5) (fun t => t.reg 1 == 0x0F && t.reg 0xF == 1) = true := by decide

/-- A19 and A20. -/
theorem test_subnReg :
    ran (run1 (regs [(1, 0x10), (2, 0x20)]) 0x8127) (fun t => t.reg 1 == 0x10 && t.reg 0xF == 1) = true
      ∧ ran (run1 (regs [(1, 0x20), (2, 0x10)]) 0x8127) (fun t => t.reg 1 == 0xF0 && t.reg 0xF == 0) = true := by decide

/-- A21 and A23, canonical. -/
theorem test_shr :
    ran (run1 (regs [(1, 5), (2, 0xFF)]) 0x8126) (fun t => t.reg 1 == 2 && t.reg 2 == 0xFF && t.reg 0xF == 1) = true
      ∧ ran (run1 (regs [(0xF, 3)]) 0x8F06) (fun t => t.reg 0xF == 1) = true
      ∧ ran (run1 (regs [(0xF, 2)]) 0x8F06) (fun t => t.reg 0xF == 0) = true := by decide

/-- A22 and A24, reference. -/
theorem test_shr_reference :
    ran (run1 (underReference (regs [(1, 1), (0xF, 9)])) 0x8106) (fun t => t.reg 1 == 0 && t.reg 0xF == 9) = true
      ∧ ran (run1 (underReference (regs [(0xF, 2)])) 0x8F06) (fun t => t.reg 0xF == 1) = true := by decide

/-- A25, A26 and A27, canonical. -/
theorem test_shl :
    ran (run1 (regs [(1, 0x81), (2, 0xFF)]) 0x812E) (fun t => t.reg 1 == 2 && t.reg 2 == 0xFF && t.reg 0xF == 1) = true
      ∧ ran (run1 (regs [(1, 0x40)]) 0x810E) (fun t => t.reg 1 == 0x80 && t.reg 0xF == 0) = true
      ∧ ran (run1 (regs [(0xF, 0x80)]) 0x8F0E) (fun t => t.reg 0xF == 1) = true := by decide

/-- A28, reference. -/
theorem test_shl_reference :
    ran (run1 (underReference (regs [(0xF, 0x41)])) 0x8F0E) (fun t => t.reg 0xF == 0x82) = true := by decide

/-- A29 and A30. -/
theorem test_rnd :
    ran (run1 { State.reset with env := { Env.reset with rand := ⟨[0xA7], 0⟩ } } 0xC50F)
        (fun t => t.reg 5 == 7 && t.env.rand.reads == 1) = true
      ∧ ran (run1 { State.reset with env := { Env.reset with rand := ⟨[0xA7], 0⟩ } } 0xC500)
        (fun t => t.reg 5 == 0) = true := by decide

/-! ## Index register and memory -/

/-- M1. -/
theorem test_ldI : ran (run1 State.reset 0xA22A) (fun t => t.I == 0x22A) = true := by decide

/-- M2, M3 and M4. -/
theorem test_addI :
    ran (run1 (bytesAt (regs [(2, 0x10), (0xF, 3)]) 0x300 []) 0xF21E) (fun t => t.I == 0x310 && t.reg 0xF == 3) = true
      ∧ ran (run1 (bytesAt (regs [(2, 2)]) 0xFFFF []) 0xF21E) (fun t => t.I == 1) = true
      ∧ ran (run1 (bytesAt (regs [(2, 1)]) 0x0FFF []) 0xF21E) (fun t => t.I == 0x1000) = true := by decide

/-- M5, M6 and M7. -/
theorem test_ldF : ran (run1 (regs [(3, 0x0A)]) 0xF329) (fun t => t.I == 100) = true
    ∧ ran (run1 (regs [(3, 0)]) 0xF329) (fun t => t.I == 50) = true
    ∧ ran (run1 (regs [(3, 0xFF)]) 0xF329) (fun t => t.I == 1325) = true := by decide

/-- M8 (and S7) and M11. -/
theorem test_ldB :
    ran (run1 (bytesAt (regs [(0, 255)]) 0x300 []) 0xF033)
        (fun t => [0x300, 0x301, 0x302].map t.readByte == [2, 5, 5] && t.I == 0x300) = true
      ∧ ran (run1 (bytesAt (regs [(0, 157)]) 0x300 []) 0xF033)
        (fun t => [0x300, 0x301, 0x302].map t.readByte == [1, 5, 7]) = true
      ∧ ran (run1 (underWrap (bytesAt (regs [(0, 129)]) 4094 [])) 0xF033)
        (fun t => [4094, 4095, 0].map t.readByte == [1, 2, 9]) = true := by decide

/-- M9 and M10. -/
theorem test_ldB_edge :
    ran (run1 (bytesAt (regs [(0, 9)]) 4093 []) 0xF033) (fun t => [4093, 4094, 4095].map t.readByte == [0, 0, 9]) = true
      ∧ ran (run1 (bytesAt (regs [(0, 9)]) 4094 []) 0xF033)
        (fun t => record t == (.halted, 6, 0xF033, 0x0200, 0x0200) && [4094, 4095].map t.readByte == [0, 0]) = true := by
  decide

/-- M12 and M14. -/
theorem test_storeRegs :
    ran (run1 (bytesAt counting 4080 []) 0xF055)
        (fun t => (List.range 16).map (fun k => t.readByte (4080 + k)) == counting.V.toList && t.I == 4080) = true
      ∧ ran (run1 (underThroughX (bytesAt counting 4093 [])) 0xF255)
        (fun t => [4093, 4094, 4095].map t.readByte == [1, 2, 3]) = true := by decide

/-- M13. -/
theorem test_storeRegs_edge :
    ran (run1 (bytesAt counting 4081 []) 0xF055)
      (fun t => record t == (.halted, 6, 0xF055, 0x0200, 0x0200) && t.readByte 4081 == 0) = true := by decide

/-- M15. -/
theorem test_loadRegs :
    ran (run1 (bytesAt State.reset 50 []) 0xF065)
      (fun t => t.V.toList == [0xF0, 0x90, 0x90, 0x90, 0xF0, 0x20, 0x60, 0x20]
        ++ [0x20, 0x70, 0xF0, 0x10, 0xF0, 0x80, 0xF0, 0xF0])
      = true := by decide

/-- M16. -/
theorem test_loadRegs_throughX :
    ran (run1 (underThroughX { bytesAt State.reset 50 [] with V := Vector.replicate 16 0xEE }) 0xF265)
      (fun t => t.V.toList == [0xF0, 0x90, 0x90] ++ List.replicate 13 0xEE) = true := by decide

/-- H11: a store is seen by the next fetch. -/
theorem test_store_then_fetch :
    ran (run1 (bytesAt (regs [(0, 0x12)]) 0x202 []) 0xF055) (fun t => t.fetchWord == some 0x1200) = true := by decide

/-! ## Display -/

/-- G1. -/
theorem test_cls :
    ran (run1 { regs [(0xF, 9)] with fb := Vector.replicate 32 5 } 0x00E0)
      (fun t => t.fb == Vector.replicate 32 0 && t.outputs == [.clearNotify] && t.reg 0xF == 9) = true := by decide

/-- A frame buffer with one row given, column 0 its leftmost bit. -/
def oneRow (y : Nat) (v : PixelRow) : FrameBuffer := (Vector.replicate 32 0).setIfInBounds y v

/-- G2, G4, G5 and G12, the drawn rows. -/
theorem test_drw :
    ran (run1 (bytesAt State.reset 0x300 [0xFF]) 0xD011)
        (fun t => t.fb == oneRow 0 0xFF00000000000000 && t.reg 0xF == 0 && t.outputs == [.present t.fb]) = true
      ∧ ran (run1 (bytesAt (regs [(0, 60)]) 0x300 [0xFF]) 0xD011)
        (fun t => t.fb == oneRow 0 0x000000000000000F && t.reg 0xF == 0) = true
      ∧ ran (run1 (bytesAt (regs [(0, 68), (1, 33)]) 0x300 [0xA5]) 0xD011)
        (fun t => t.fb == oneRow 1 0x0A50000000000000 && t.reg 0xF == 0) = true
      ∧ ran (run1 (bytesAt (regs [(1, 31)]) 4095 [0xFF]) 0xD011)
        (fun t => t.fb == oneRow 31 0xFF00000000000000) = true := by decide

/-- G6 to G11. -/
theorem test_drw_corners :
    ran (run1 (bytesAt (regs [(1, 30)]) 50 []) 0xD015)
        (fun t => t.fb == (oneRow 30 0xF000000000000000).setIfInBounds 31 0x9000000000000000 && t.reg 0xF == 0) = true
      ∧ ran (run1 (bytesAt (regs [(0xF, 9)]) 0x300 []) 0xD010)
        (fun t => t.fb == State.reset.fb && t.reg 0xF == 0 && t.outputs == [.present t.fb]) = true
      ∧ ran (run1 (bytesAt (regs [(0xF, 3)]) 0x300 [0x80]) 0xDF01)
        (fun t => t.fb == oneRow 0 0x1000000000000000 && t.reg 0xF == 0) = true
      ∧ ran (run1 { bytesAt (regs [(0xF, 3)]) 0x300 [0x80] with fb := oneRow 0 0x1000000000000000 } 0xDF01)
        (fun t => t.fb == State.reset.fb && t.reg 0xF == 1) = true
      ∧ ran (run1 { bytesAt State.reset 0x300 [0xC0] with fb := oneRow 0 0x4400000000000000 } 0xD011)
        (fun t => t.fb == oneRow 0 0x8400000000000000 && t.reg 0xF == 1) = true
      ∧ ran (run1 (bytesAt (regs [(1, 31)]) 4095 [0xFF]) 0xD012)
        (fun t => record t == (.halted, 6, 0xD012, 0x0200, 0x0200) && t.fb == State.reset.fb && t.outputs == [])
        = true := by decide

/-! ## Keypad and timers -/

/-- T1 and T2. -/
theorem test_ldVxK : ran (run1 (waiting (regs [(3, 9)]) none) 0xF30A) (fun t => t.pc == 0x200 && t.reg 3 == 9) = true
    ∧ ran (run1 (waiting State.reset (some 7)) 0xF30A) (fun t => t.pc == 0x202 && t.reg 3 == 7) = true := by decide

/-- T3. -/
theorem test_ldVxDT :
    ran (run1 { State.reset with DT := ⟨0x1E, 0, 0⟩ } 0xF407) (fun t => t.reg 4 == 0x1E) = true := by decide

/-- T4 and T10. -/
theorem test_ldDTVx :
    ran (run1 (clocked (regs [(1, 0x3C)]) 0 [1000, 500, 100]) 0xF115)
        (fun t => t.DT == ⟨60, 500, 1500⟩ && t.ST == ⟨0, 0, 1600⟩) = true
      ∧ ran (run1 { State.reset with DT := ⟨9, 0, 0⟩ } 0xF115) (fun t => t.DT.count == 0) = true := by decide

/-- T5. -/
theorem test_ldSTVx :
    ran (run1 (clocked (regs [(1, 5)]) 0 [0, 0, 0]) 0xF118) (fun t => t.ST.count == 5 && t.soundCount == 5) = true := by
  decide

/-! ## The host's two questions, on one row -/

theorem test_first_instruction :
    decodeTableWord 16 0x6A2C = some (.ldByte 0xA 0x2C)
      ∧ (State.reset.withFetchWord 16 0x6A2C).fetchWord = some 0x6A2C := by decide

/-! ## Witnesses: for every statement with hypotheses, a state and operands that meet them together -/

theorem test_witness_DecodeAfterEncode :
    (Instr.drw 0xF 0 0xF).wellFormed = true ∧ Instr.cls.wellFormed = true := by decide

theorem test_witness_EncodeAfterDecode :
    decodeWord 0x8AB6 = some (.shr 0xA 0xB) ∧ decodeWord 0xFFFF = none := by decide

theorem test_witness_DecodeFollowsOpcodeMap :
    (⟨16, 0xF00F, 0x8006⟩ : OpRow) ∈ opRows ∧ (0x8AB6 : Word) &&& 0xF00F = 0x8006
      ∧ decodeWord 0x8AB6 = some (.shr 0xA 0xB) ∧ (Instr.shr 0xA 0xB).opRow = ⟨16, 0xF00F, 0x8006⟩ := by decide

/-- A running machine about to fetch an illegal word, one for the end of the image among them. -/
theorem test_witness_IllegalWordsHaltDecode :
    (ready 0x0204 4 false).run = .running ∧ (ready 0x0204 4 false).quitAnswer = false
      ∧ (ready 0x0204 4 false).pcInRange = true ∧ (ready 0x0204 4 false).fetchWord = some 0x0000
      ∧ illegalWord 0x0000 = true := by decide

/-- R66 on both sides of 4095, under both policies; and its example, I = 0xFFFF with offset 2. -/
theorem test_witness_AddressesAndByteAccesses :
    4095 ≤ 4095 ∧ resolve hardwareConfig 4095 = some 4095
      ∧ 4095 < 4096 ∧ hardwareConfig.oobPolicy = .fault ∧ resolve hardwareConfig 4096 = none
      ∧ (underWrap State.reset).cfg.oobPolicy = .wrap ∧ resolve (underWrap State.reset).cfg 4096 = some 0
      ∧ resolve (underWrap State.reset).cfg ((bytesAt State.reset 0xFFFF []).dataBase + 2) = some 1
      ∧ resolve hardwareConfig ((bytesAt State.reset 0xFFFF []).dataBase + 2) = none := by decide

theorem test_witness_CanonicalMemoriesAreEqual :
    Memory.wf (unlisted hardwareConfig) [(0x300, 1), (0xFFF, 2)]
      ∧ ∀ a, Memory.read (unlisted hardwareConfig) [(0x300, 1), (0xFFF, 2)] a
          = Memory.read (unlisted hardwareConfig)
              (Memory.write (unlisted hardwareConfig) [(0xFFF, 2)] 0x300 1) a :=
  ⟨by decide, fun _ => rfl⟩

/-- Also at the last pc a fetch can succeed at, 4094. -/
theorem test_witness_StepRunsDecodedInstruction :
    ([0x200, 4094] : List Word).all (fun pc =>
      let s := ({ State.reset with pc := pc } : State).withFetchWord 16 0x6A2C
      s.run == .running && s.quitAnswer == false && s.pcInRange && s.memRead s.pc.toNat == some 0x6A
        && s.memRead (s.pc.toNat + 1) == some 0x2C) = true
      ∧ decode [0x6A, 0x2C] = .ok (.ldByte 0xA 0x2C, []) := ⟨by decide, rfl⟩

/-- Its two clauses: an instruction that goes on, and one that halts. -/
theorem test_witness_StepRunsDecodedInstruction_clauses :
    (∃ t, exec (.ldByte 0xA 0x2C) State.reset.afterQuit.advance = .next t ∧ (t.run == .running) = true)
      ∧ ∃ t, exec .ret State.reset.afterQuit.advance = .next t ∧ (t.run == .halted) = true :=
  ⟨ran_next (by decide), ran_next (by decide)⟩

theorem test_witness_QuitRequestHalts :
    (ready 0x0000 4 true).run = .running ∧ (ready 0x0000 4 true).quitAnswer = true := by decide

/-- Below and above the range, and at both its ends. -/
theorem test_witness_PcRangeCheck :
    ([0x01FF, 0x0205, 0x0200, 0x0204] : List Word).all (fun pc =>
      (ready pc 4 false).run == .running && (ready pc 4 false).haltCause == .none
        && (ready pc 4 false).quitAnswer == false) = true
      ∧ (ready 0x01FF 4 false).pc.toNat < 512
      ∧ 512 + (ready 0x0205 4 false).imageSize < (ready 0x0205 4 false).pc.toNat
      ∧ (∃ t, step (ready 0x0200 4 false) = .next t ∧ (t.haltCause == .decode) = true)
      ∧ ∃ t, step (ready 0x0204 4 false) = .next t ∧ (t.haltCause == .decode) = true :=
  ⟨by decide, by decide, by decide, ran_next (by decide), ran_next (by decide)⟩

/-- pc = 4095 and pc = 4096, under both policies. -/
theorem test_witness_FetchBeyondMemory :
    ([4095, 4096] : List Word).all (fun pc =>
      (ready pc 3584 false).run == .running && (ready pc 3584 false).quitAnswer == false
        && (ready pc 3584 false).pcInRange && decide (4095 < (ready pc 3584 false).pc.toNat + 1)) = true
      ∧ (ready 4095 3584 false).cfg.oobPolicy = .fault
      ∧ (underWrap (ready 4095 3584 false)).cfg.oobPolicy = .wrap
      ∧ (underWrap (ready 4095 3584 false)).pcInRange = true := by decide

theorem test_witness_HaltedMachineHasNoStep :
    (resetWith hardwareConfig (List.replicate 3585 0)).run = .halted := test_reset_too_large.1

theorem test_witness_RunningMachineAlwaysSteps :
    State.reset.run = .running ∧ (ready 0x0200 4 true).quitAnswer = true := by decide

/-- Steps that halt, one per cause, each with its record. -/
theorem test_witness_HaltingStep :
    (∃ t, step (ready 0 4 true) = .next t ∧ (t.run == .halted && t.haltCause == .quit) = true)
      ∧ (∃ t, step (ready 0 4 false) = .next t ∧ (t.run == .halted && t.haltCause == .pcRange) = true)
      ∧ (∃ t, step (ready 4095 3584 false) = .next t ∧ (t.run == .halted && t.haltCause == .memRange) = true)
      ∧ (∃ t, run1 State.reset 0x5121 = .next t ∧ (t.run == .halted && t.haltCause == .decode) = true)
      ∧ (∃ t, run1 State.reset 0x00EE = .next t ∧ (t.run == .halted && t.haltCause == .stackUnderflow) = true)
      ∧ (∃ t, run1 { State.reset with sp := 48 } 0x2300 = .next t
          ∧ (t.run == .halted && t.haltCause == .stackOverflow) = true)
      ∧ ∃ t, run1 (bytesAt State.reset 4094 []) 0xF033 = .next t
          ∧ (t.run == .halted && t.haltCause == .memRange) = true :=
  ⟨ran_next (by decide), ran_next (by decide), ran_next (by decide), ran_next (by decide), ran_next (by decide),
    ran_next (by decide), ran_next (by decide)⟩

theorem test_witness_HaltingStepCommitsNothing :
    (ready 0 4 true).run = .running
      ∧ ∃ t, step (ready 0 4 true) = .next t ∧ (t.run == .halted && t.haltCause == .quit) = true :=
  ⟨rfl, test_witness_HaltingStep.1⟩

/-- Both parts: a step that halts, and both kinds of image (3584 and 3585 bytes). -/
theorem test_witness_HaltRecordsCauseWordAndAddress :
    (ready 0 4 false).run = .running
      ∧ (∃ t, step (ready 0 4 false) = .next t ∧ (t.run == .halted && t.haltCause == .pcRange) = true)
      ∧ (List.replicate 3584 (0 : Byte)).length ≤ 3584 ∧ 3584 < (List.replicate 3585 (0 : Byte)).length :=
  ⟨rfl, test_witness_HaltingStep.2.1, Nat.le_of_eq List.length_replicate,
    Nat.lt_of_lt_of_eq (Nat.lt_succ_self 3584) List.length_replicate.symm⟩

theorem test_witness_HaltCauseByPriority :
    (ready 4095 3584 false).run = .running
      ∧ ∃ t, step (ready 4095 3584 false) = .next t ∧ (t.run == .halted && t.haltCause == .memRange) = true :=
  ⟨rfl, test_witness_HaltingStep.2.2.1⟩

/-- A call from a stack with one entry in use. -/
theorem test_witness_StepKeepsControlInv :
    ControlInv ({ State.reset with sp := 1, stack := State.reset.stack.set 0 0x204 } : State)
      ∧ ControlInv (State.reset.withFetchWord 16 0x2300)
      ∧ ∃ t, step (State.reset.withFetchWord 16 0x2300) = .next t ∧ (t.sp == 1) = true := by
  refine ⟨⟨rfl, by decide, by decide, by decide, ?_⟩, ⟨rfl, by decide, by decide, by decide, ?_⟩, ran_next (by decide)⟩
  · intro k hk
    have h0 : k = 0 := by simpa using hk
    subst h0; decide
  · intro k hk; exact absurd hk (Nat.not_lt_zero k)

/-- A step that stores. -/
theorem test_witness_StepKeepsMemoryInv :
    MemoryInv ((bytesAt counting 4080 []).withFetchWord 16 0xF055)
      ∧ ∃ t, step ((bytesAt counting 4080 []).withFetchWord 16 0xF055) = .next t ∧ (t.readByte 4095 == 16) = true := by
  refine ⟨?_, ran_next (by decide)⟩
  unfold MemoryInv
  decide

theorem test_witness_StepKeepsTimerInv :
    TimerInv ((clocked { State.reset with DT := ⟨5, 1, 0⟩, ST := ⟨0, 0, 7⟩ } 7 [100000]).withFetchWord 16 0x6000)
      ∧ ∃ t, step ((clocked { State.reset with DT := ⟨5, 1, 0⟩, ST := ⟨0, 0, 7⟩ } 7 [100000]).withFetchWord 16 0x6000)
          = .next t ∧ (t.DT.count == 0) = true := by
  refine ⟨?_, ran_next (by decide)⟩
  unfold TimerInv TimerOk
  decide

theorem test_witness_StepKeepsHaltInv :
    HaltInv (ready 0 4 true) ∧ ∃ t, step (ready 0 4 true) = .next t ∧ (t.run == .halted) = true := by
  refine ⟨?_, ran_next (by decide)⟩
  unfold HaltInv
  decide

theorem test_witness_ParametersNeverChange :
    ∃ t, run1 State.reset 0x6A2C = .next t ∧ (t.pc == 0x202) = true := ran_next (by decide)

/-- Both clauses: a step that runs on with three reads of the clock, and one that halts with none. -/
theorem test_witness_PortReadsPerStep :
    (∃ t, run1 State.reset 0xF115 = .next t ∧ (t.run == .running && t.env.elapsed.reads == 3) = true)
      ∧ ∃ t, run1 State.reset 0x5121 = .next t ∧ (t.run == .halted && t.env.elapsed.reads == 0) = true :=
  ⟨ran_next (by decide), ran_next (by decide)⟩

theorem test_witness_IndexRegisterWriters :
    ∃ t, step (State.reset.withFetchWord 16 0xA22A) = .next t
      ∧ (t.I != (State.reset.withFetchWord 16 0xA22A).I) = true := ran_next (by decide)

theorem test_witness_FrameBufferWriters :
    ∃ t, run1 (bytesAt State.reset 50 []) 0xD011 = .next t ∧ (t.fb != State.reset.fb) = true := ran_next (by decide)

theorem test_witness_MemoryWriters :
    ∃ t, step ((bytesAt (regs [(0, 9)]) 0x300 []).withFetchWord 16 0xF033) = .next t
      ∧ (t.mem != ((bytesAt (regs [(0, 9)]) 0x300 []).withFetchWord 16 0xF033).mem) = true := ran_next (by decide)

theorem test_witness_StackWriters :
    (∃ t, run1 State.reset 0x2300 = .next t ∧ (t.stack != State.reset.stack && t.sp != 0) = true)
      ∧ ∃ t, run1 { State.reset with sp := 1 } 0x00EE = .next t ∧ (t.sp != 1) = true :=
  ⟨ran_next (by decide), ran_next (by decide)⟩

theorem test_witness_TimerCountsNeverIncrease :
    (∃ t, step (State.reset.withFetchWord 16 0x6A2C) = .next t ∧ (t.pc == 0x202) = true)
      ∧ (State.reset.withFetchWord 16 0x6A2C).nextInstr = some (.ldByte 0xA 0x2C) :=
  ⟨ran_next (by decide), by decide⟩

theorem test_witness_TimerCountAfterDecays :
    (0 : Nat) < 16667 ∧ (1000 :: ([2000, 2000] ++ [40000])).Pairwise (· ≤ ·) := by decide

theorem test_witness_DecayTakesWholeTicks :
    (0 : Nat) < 16667 ∧ (Timer.mk 2 10000 100000).ref ≤ 140000 ∧ (Timer.mk 2 10000 100000).count ≠ 0
      ∧ (Timer.mk 0 10000 100000).count = 0 := by decide

/-- Both disjuncts: an instruction that writes its pieces, and one that halts. -/
theorem test_witness_InstructionChangesOnlyPiecesItsRuleNames :
    (∃ t, exec (.ldI 5) State.reset = .next t ∧ (t.I == 5) = true)
      ∧ ∃ t, exec .ret State.reset = .next t ∧ (t.haltCause == .stackUnderflow) = true :=
  ⟨ran_next (by decide), ran_next (by decide)⟩

/-- The first and the last entry, and the full stack. -/
theorem test_witness_CallPushesOrOverflows :
    State.reset.stack.length = State.reset.cfg.stackCapacity ∧ State.reset.sp < State.reset.cfg.stackCapacity
      ∧ ({ State.reset with sp := 47 } : State).sp < State.reset.cfg.stackCapacity
      ∧ ({ State.reset with sp := 48 } : State).sp = State.reset.cfg.stackCapacity := by decide

theorem test_witness_ReturnPopsOrUnderflows :
    ({ State.reset with sp := 1 } : State).sp ≠ 0 ∧ ({ State.reset with sp := 48 } : State).sp ≠ 0
      ∧ State.reset.sp = 0 := by decide

/-- A machine about to run one word placed at 0x200, one more quit answer of no behind it, no key reported. -/
def about (s : State) (w : Nat) : State :=
  State.withFetchWord { waiting s none with env := { (waiting s none).env with quit := ⟨[false], 0⟩ } } 16 w

/-- One step ends with pc out of the image and no quit request, the machine still running. -/
def leaves (s : State) (pc : Word) : Bool :=
  s.run == .running && s.quitAnswer == false && s.pcInRange
    && ran (step s) (fun t => t.run == .running && t.pc == pc && t.quitAnswer == false && !t.pcInRange)

/-- An image of two bytes is left, and the next step is due: by 1NNN to 511 and to 515 (both sides of the range), BNNN,
2NNN, 00EE, a skip taken (also one on a key), and by 6XNN at the last pc in range. -/
theorem test_witness_PcOutOfImageHaltsNextStep :
    leaves (about State.reset 0x11FF) 0x1FF = true ∧ leaves (about State.reset 0x1203) 0x203 = true
      ∧ leaves (about (regs [(0, 0xFF)]) 0xBFFF) 0x10FE = true ∧ leaves (about State.reset 0x2300) 0x300 = true
      ∧ leaves (about { State.reset with sp := 1, stack := State.reset.stack.set 0 0x204 } 0x00EE) 0x204 = true
      ∧ leaves (about State.reset 0x3000) 0x204 = true
      ∧ leaves (about (keysDown State.reset 1) 0xE09E) 0x204 = true
      ∧ leaves { about State.reset 0x6A2C with imageSize := 0 } 0x202 = true := by decide

/-- The instruction about to run, and that it goes on: its stack has room, holds an entry, its bytes are in range. -/
theorem test_witness_PcOutOfImageHaltsNextStep_goesOn :
    (about State.reset 0x2300).nextInstr = some (.call 0x300)
      ∧ goesOn (about { State.reset with sp := 47 } 0x2300) (.call 0x300)
      ∧ goesOn (about { State.reset with sp := 1 } 0x00EE) .ret
      ∧ goesOn (about (bytesAt State.reset 4093 []) 0xF033) (.ldB 0)
      ∧ goesOn (about (bytesAt State.reset 4080 []) 0xF055) (.storeRegs 0)
      ∧ goesOn (about (bytesAt State.reset 4095 []) 0xD011) (.drw 0 1 1) :=
  ⟨by decide, by unfold goesOn; decide, by unfold goesOn; decide, .inr (.inl (by decide)), .inr (.inl (by decide)),
    .inr (.inl (by decide))⟩

theorem test_witness_BlockedKeyWaitIsAWholeStep :
    (about State.reset 0xF30A).run = .running ∧ (about State.reset 0xF30A).nextInstr = some (.ldVxK 3) ∧ (about State.reset 0xF30A).quitAnswer = false
      ∧ (about State.reset 0xF30A).pcInRange = true ∧ (about State.reset 0xF30A).keyWaitAnswer = none := by decide

/-- S3: 48 addresses fill the stack. -/
theorem test_witness_StackIsLastInFirstOut :
    State.reset.stack.length = State.reset.cfg.stackCapacity
      ∧ State.reset.sp + (List.replicate 48 (0x204 : Word)).length = State.reset.cfg.stackCapacity := by decide

theorem test_witness_KeySkipsUseLowNibble :
    (5 : KeyCode).toNat = ((regs [(2, 0xF5)]).reg 2).toNat % 16
      ∧ (keysDown State.reset 0x0020).keyDownAnswer 5 = true
      ∧ (keysDown State.reset 0x0020).keyDownAnswer 6 = false := by decide

/-- Both policies; for the clauses with X not V[0xF], X = 1. -/
theorem test_witness_FlagPolicies :
    State.reset.cfg.flagPolicy = .canonical ∧ (underReference State.reset).cfg.flagPolicy = .reference
      ∧ (1 : RegIdx) ≠ 0xF := by decide

theorem test_witness_AddWritesCarry :
    State.reset.cfg.flagPolicy = .canonical ∧ (underReference State.reset).cfg.flagPolicy = .reference
      ∧ (1 : RegIdx) ≠ 0xF := test_witness_FlagPolicies

theorem test_witness_SubtractsWriteNoBorrow : (0 : RegIdx) ≠ 0xF ∧ (0xE : RegIdx) ≠ 0xF := by decide

theorem test_witness_ShiftsByOne :
    State.reset.cfg.flagPolicy = .canonical ∧ (underReference State.reset).cfg.flagPolicy = .reference
      ∧ (1 : RegIdx) ≠ 0xF := test_witness_FlagPolicies

theorem test_witness_RandomIsMasked : (0x0F : Byte).getLsbD 4 = false ∧ (0x0F : Byte).getLsbD 7 = false := by decide

/-- The hardware's parameters are legal, and so are those with the font right below the image. -/
theorem test_witness_IndexRegisterResults :
    hardwareConfig.legal = true ∧ ({ hardwareConfig with fontBase := 432 } : Config).legal = true
      ∧ ({ hardwareConfig with fontBase := 433 } : Config).legal = false := by decide

/-- The last I in range, and I beyond it under `wrap`. -/
theorem test_witness_BcdStoresDigits :
    blockInRange hardwareConfig (bytesAt State.reset 4093 []).dataBase 3
      ∧ blockInRange (underWrap State.reset).cfg (bytesAt State.reset 4094 []).dataBase 3
      ∧ resolve hardwareConfig 4095 = some 4095 ∧ resolve (underWrap State.reset).cfg 4096 = some 0
      ∧ hardwareConfig.oobPolicy = .fault ∧ 4095 < (bytesAt State.reset 4094 []).dataBase + 2 :=
  ⟨.inr (.inl (by decide)), .inl rfl, by decide, by decide, rfl, by decide⟩

/-- Both choices of REG_BLOCK at the last I in range. -/
theorem test_witness_BlockStoreWritesRegisters :
    (15 : RegIdx) = (if hardwareConfig.regBlock = .all16 then 15 else 2)
      ∧ blockInRange hardwareConfig (bytesAt State.reset 4080 []).dataBase ((15 : RegIdx).toNat + 1)
      ∧ (2 : RegIdx) = (if (underThroughX State.reset).cfg.regBlock = .all16 then 15 else 2)
      ∧ blockInRange (underThroughX State.reset).cfg (bytesAt State.reset 4093 []).dataBase ((2 : RegIdx).toNat + 1) :=
  ⟨by decide, .inr (.inl (by decide)), by decide, .inr (.inl (by decide))⟩

theorem test_witness_BlockLoadReadsRegisters :
    (15 : RegIdx) = (if hardwareConfig.regBlock = .all16 then 15 else 0)
      ∧ blockInRange hardwareConfig (bytesAt State.reset 50 []).dataBase ((15 : RegIdx).toNat + 1) :=
  ⟨by decide, .inr (.inl (by decide))⟩

/-- Each of the four instructions at the first I out of range. -/
theorem test_witness_OutOfRangeDataAccessHalts :
    hardwareConfig.oobPolicy = .fault
      ∧ 4095 < (bytesAt State.reset 4094 []).dataBase + 3 - 1
      ∧ 4095 < (bytesAt State.reset 4081 []).dataBase
          + ((if hardwareConfig.regBlock = .all16 then 15 else (0 : RegIdx).toNat) + 1) - 1
      ∧ 1 ≤ (2 : Nibble).toNat ∧ 4095 < (bytesAt State.reset 4095 []).dataBase + (2 : Nibble).toNat - 1 := by decide

theorem test_witness_BlockStoreThenLoadRestores :
    blockInRange hardwareConfig (bytesAt State.reset 4080 []).dataBase ((blockLast hardwareConfig 0).toNat + 1) :=
  .inr (.inl (by decide))

/-- In range at the last I; no collision on the clear buffer, a collision where the sprite meets a lit pixel. -/
theorem test_witness_DrawXorsClippedSprite :
    blockInRange hardwareConfig (bytesAt State.reset 4095 [0xFF]).dataBase (1 : Nibble).toNat
      ∧ pixel (oneRow 0 0x4400000000000000) 0 1 = true
      ∧ drwBit { bytesAt State.reset 0x300 [0xC0] with fb := oneRow 0 0x4400000000000000 } 0 1 1 0 1 = true
      ∧ drwBit (bytesAt (regs [(0, 60)]) 0x300 [0xFF]) 0 1 1 0 63 = true
      ∧ drwBit (bytesAt (regs [(0, 60)]) 0x300 [0xFF]) 0 1 1 0 0 = false :=
  ⟨.inr (.inl (by decide)), by decide, by decide, by decide, by decide⟩

/-- S4: the clear buffer, and a sprite with a visible bit. -/
theorem test_witness_DrawTwiceRestores :
    (0 : RegIdx) ≠ 0xF ∧ (1 : RegIdx) ≠ 0xF
      ∧ blockInRange hardwareConfig (bytesAt State.reset 0x300 [0xFF]).dataBase (1 : Nibble).toNat
      ∧ drwBit (bytesAt State.reset 0x300 [0xFF]) 0 1 1 0 7 = true
      ∧ ∀ r c, pixel State.reset.fb r c = false := by
  refine ⟨by decide, by decide, .inr (.inl (by decide)), by decide, ?_⟩
  intro r c
  simp [pixel, State.reset, BitVec.getMsbD]

theorem test_witness_KeyWaitBlocksOrLoads :
    (waiting State.reset none).keyWaitAnswer = none ∧ (waiting State.reset (some 0xF)).keyWaitAnswer = some 0xF := by
  decide

theorem test_witness_ResetLoadsImage :
    hardwareConfig.legal = true ∧ (List.replicate 3584 (0 : Byte)).length ≤ 3584
      ∧ 3584 < (List.replicate 3585 (0 : Byte)).length :=
  ⟨by decide, Nat.le_of_eq List.length_replicate,
    Nat.lt_of_lt_of_eq (Nat.lt_succ_self 3584) List.length_replicate.symm⟩

end Sys2Proof.Tests
end

section
/-! SUPPORT. The end of a run: a halted machine (spec 40_step_cycle R127). -/

namespace Sys2Proof.Machine

/-- The step function looks at `run` before it reads the quit line, so a halted machine reaches no phase of R120.
`step_running` says only that it has no next state; this names the outcome it has. -/
theorem step_halted {s : State} (h : s.run = .halted) : step s = .fault .halted := by
  unfold step
  rw [h]

/-- Settles O13: HALTED is the stuck state, by `step_halted`. -/
theorem haltedMachineHasNoStep : Obligations.HaltedMachineHasNoStep := by
  unfold Obligations.HaltedMachineHasNoStep
  intro s hs
  exact step_halted hs

end Sys2Proof.Machine
end

section
/-! SUPPORT. The jumps (spec 41_flow R142, R146): an operand extended to pc's width keeps its value, a sum of two such
operands does not wrap, and a write of pc changes only pc. -/

namespace Sys2Proof.Machine

/-- Another pc is all that `withPc` changes. -/
theorem frame_withPc (s : State) (v : Word) : frame [.pc] s (s.withPc v) := by
  intro p hp
  cases p <;> simp_all [unchanged, State.reg, State.readByte]

@[simp] theorem zextAddr_toNat (nnn : Addr12) : (zextAddr nnn).toNat = nnn.toNat :=
  BitVec.toNat_setWidth_of_le (by decide)

@[simp] theorem zextByte_toNat (b : Byte) : (zextByte b).toNat = b.toNat :=
  BitVec.toNat_setWidth_of_le (by decide)

/-- The sum of BNNN is at most 255 + 4095, so it is a plain one (spec 41_flow R146). -/
theorem zextByte_add_zextAddr_toNat (b : Byte) (nnn : Addr12) :
    (zextByte b + zextAddr nnn).toNat = b.toNat + nnn.toNat := by
  have hb := b.isLt
  have hn := nnn.isLt
  have hfits : (zextByte b).toNat + (zextAddr nnn).toNat < 2 ^ 16 := by
    rw [zextByte_toNat, zextAddr_toNat]; omega
  rw [BitVec.toNat_add_of_lt hfits, zextByte_toNat, zextAddr_toNat]

theorem exec_jp (nnn : Addr12) (s : State) : exec (.jp nnn) s = .next (s.withPc (zextAddr nnn)) := rfl

theorem exec_jpV0 (nnn : Addr12) (s : State) :
    exec (.jpV0 nnn) s = .next (s.withPc (zextByte (s.reg 0) + zextAddr nnn)) := rfl

/-- Settles O33: both jumps are one write of pc, whose frame is `frame_withPc`; the value is the operand's, or the sum
that does not wrap. -/
theorem jumpsSetPc : Obligations.JumpsSetPc := by
  unfold Obligations.JumpsSetPc
  intro nnn s
  constructor
  · exact ⟨_, exec_jp nnn s, zextAddr_toNat nnn, frame_withPc s _⟩
  · exact ⟨_, exec_jpV0 nnn s, zextByte_add_zextAddr_toNat (s.reg 0) nnn, frame_withPc s _⟩

end Sys2Proof.Machine
end

section
/-! SUPPORT. The conditional skips (spec 42_skip R150 to R154): a skip moves pc on exactly when its test answers true,
and each of the four instructions is one skip on its own comparison. -/

namespace Sys2Proof.Machine

/-- The skip of R150, with its Boolean test read as the condition `c` that it decides. -/
theorem State.skipIf_pc (s : State) {b : Bool} {c : Prop} [Decidable c] (hb : b = true ↔ c) :
    (s.skipIf b).pc = if c then s.pc + 2 else s.pc := by
  by_cases hc : c
  · rw [if_pos hc, hb.mpr hc]; rfl
  · rw [if_neg hc, Bool.eq_false_iff.mpr (mt hb.mp hc)]; rfl

theorem exec_seByte (x : RegIdx) (nn : Byte) (s : State) :
    exec (.seByte x nn) s = .next (s.skipIf (s.reg x == nn)) := rfl

theorem exec_sneByte (x : RegIdx) (nn : Byte) (s : State) :
    exec (.sneByte x nn) s = .next (s.skipIf (s.reg x != nn)) := rfl

theorem exec_seReg (x y : RegIdx) (s : State) :
    exec (.seReg x y) s = .next (s.skipIf (s.reg x == s.reg y)) := rfl

theorem exec_sneReg (x y : RegIdx) (s : State) :
    exec (.sneReg x y) s = .next (s.skipIf (s.reg x != s.reg y)) := rfl

/-- Settles O38: each instruction is one skip, whose frame is `frame_skipIf` and whose pc is `State.skipIf_pc` at the
test `==` or `!=` of the instruction. -/
theorem skipsAdvanceOnCondition : Obligations.SkipsAdvanceOnCondition := by
  unfold Obligations.SkipsAdvanceOnCondition
  intro x y nn s
  refine ⟨?seByte, ?sneByte, ?seReg, ?sneReg⟩
  case seByte => exact ⟨_, exec_seByte x nn s, s.skipIf_pc beq_iff_eq, frame_skipIf s _⟩
  case sneByte => exact ⟨_, exec_sneByte x nn s, s.skipIf_pc bne_iff_ne, frame_skipIf s _⟩
  case seReg => exact ⟨_, exec_seReg x y s, s.skipIf_pc beq_iff_eq, frame_skipIf s _⟩
  case sneReg => exact ⟨_, exec_sneReg x y s, s.skipIf_pc bne_iff_ne, frame_skipIf s _⟩

end Sys2Proof.Machine
end

section
/-! SUPPORT. Load, addition of a byte, logic and random (spec 43_alu R161 to R166, R178): each of these instructions is
one write of V[X], with no flag beside it; the random draw reads its port first, which no register shows. -/

namespace Sys2Proof.Machine

theorem State.reg_setReg_self (s : State) (x : RegIdx) (v : Byte) : (s.setReg x v).reg x = v := by
  rw [State.reg_setReg, if_pos rfl]

theorem exec_ldByte (x : RegIdx) (nn : Byte) (s : State) : exec (.ldByte x nn) s = .next (s.setReg x nn) := rfl

theorem exec_addByte (x : RegIdx) (nn : Byte) (s : State) :
    exec (.addByte x nn) s = .next (s.setReg x (s.reg x + nn)) := rfl

theorem exec_ldReg (x y : RegIdx) (s : State) : exec (.ldReg x y) s = .next (s.setReg x (s.reg y)) := rfl

theorem exec_orReg (x y : RegIdx) (s : State) :
    exec (.orReg x y) s = .next (s.setReg x (s.reg x ||| s.reg y)) := rfl

theorem exec_andReg (x y : RegIdx) (s : State) :
    exec (.andReg x y) s = .next (s.setReg x (s.reg x &&& s.reg y)) := rfl

theorem exec_xorReg (x y : RegIdx) (s : State) :
    exec (.xorReg x y) s = .next (s.setReg x (s.reg x ^^^ s.reg y)) := rfl

theorem exec_rnd (x : RegIdx) (nn : Byte) (s : State) :
    exec (.rnd x nn) s = .next (s.afterRand.setReg x (s.randAnswer &&& nn)) := rfl

/-- What every instruction that is one register write does; the value written is left open. -/
theorem exec_setReg_spec {i : Instr} {x : RegIdx} {v : Byte} {s : State} (h : exec i s = .next (s.setReg x v)) :
    ∃ t, exec i s = .next t ∧ t.reg x = v ∧ sameRegsExcept [x] s t ∧ frame [.V] s t :=
  ⟨_, h, s.reg_setReg_self x v, sameRegsExcept_setReg s x v, frame_setReg s x v⟩

/-- Settles O40: both loads are one register write. -/
theorem registerLoads : Obligations.RegisterLoads := by
  unfold Obligations.RegisterLoads
  intro x y nn s
  exact ⟨exec_setReg_spec (exec_ldByte x nn s), exec_setReg_spec (exec_ldReg x y s)⟩

/-- Settles O41: the one register write leaves V[0xF] alone when X is another register, and its value is a sum of bytes,
which is taken modulo 256. -/
theorem addByteWraps : Obligations.AddByteWraps := by
  unfold Obligations.AddByteWraps
  intro x nn s
  obtain ⟨t, ht, hx, hregs, hframe⟩ := exec_setReg_spec (exec_addByte x nn s)
  have hsum : (t.reg x).toNat = ((s.reg x).toNat + nn.toNat) % 256 := by
    rw [hx, BitVec.toNat_add]
  exact ⟨t, ht, hsum, hregs, hframe⟩

/-- Settles O42: each instruction is one register write, whose value is the word operation, read off bit by bit. -/
theorem logicIsBitwise : Obligations.LogicIsBitwise := by
  unfold Obligations.LogicIsBitwise
  intro x y s
  refine ⟨?orReg, ?andReg, ?xorReg⟩
  case orReg =>
    obtain ⟨t, ht, hx, hkept⟩ := exec_setReg_spec (exec_orReg x y s)
    exact ⟨t, ht, fun b => by rw [hx, BitVec.getLsbD_or], hkept⟩
  case andReg =>
    obtain ⟨t, ht, hx, hkept⟩ := exec_setReg_spec (exec_andReg x y s)
    exact ⟨t, ht, fun b => by rw [hx, BitVec.getLsbD_and], hkept⟩
  case xorReg =>
    obtain ⟨t, ht, hx, hkept⟩ := exec_setReg_spec (exec_xorReg x y s)
    exact ⟨t, ht, fun b => by rw [hx, BitVec.getLsbD_xor], hkept⟩

theorem State.reg_afterRand (s : State) (r : RegIdx) : s.afterRand.reg r = s.reg r := State.reg_congr rfl r

/-- The read of the random port changes the environment, the write that follows it one register. -/
theorem frame_afterRand_setReg (s : State) (x : RegIdx) (v : Byte) :
    frame [.V, .env] s (s.afterRand.setReg x v) := by
  have hread : frame [.V, .env] s s.afterRand := frame_mono (frame_withEnv s _) (by simp)
  have hwrite : frame [.V, .env] s.afterRand (s.afterRand.setReg x v) := frame_mono (frame_setReg _ x v) (by simp)
  exact frame_trans hread hwrite

/-- Settles O46: the draw is one read of the random port and one write of the masked answer, whatever the answer is. -/
theorem randomIsMasked : Obligations.RandomIsMasked := by
  unfold Obligations.RandomIsMasked
  intro x nn s
  have hx : (s.afterRand.setReg x (s.randAnswer &&& nn)).reg x = s.randAnswer &&& nn :=
    s.afterRand.reg_setReg_self x _
  refine ⟨_, exec_rnd x nn s, hx, ?maskedBits, rfl, ?otherRegs, frame_afterRand_setReg s x _⟩
  case maskedBits =>
    intro b hb
    rw [hx, BitVec.getLsbD_and, hb, Bool.and_false]
  case otherRegs =>
    intro r hr
    rw [sameRegsExcept_setReg s.afterRand x _ r hr, s.reg_afterRand r]

end Sys2Proof.Machine
end

section
/-! SUPPORT. Clearing the display (spec 45_display R211, R218): a write of the frame buffer and an output emitted, each
with its frame, and the buffer of zero rows read pixel by pixel. -/

namespace Sys2Proof.Machine

/-- Another frame buffer is all that `withFb` changes. -/
theorem frame_withFb (s : State) (f : FrameBuffer) : frame [.fb] s (s.withFb f) := by
  intro p hp
  cases p <;> simp_all [unchanged, State.reg, State.readByte]

/-- An output emitted changes only the outputs. -/
theorem frame_emit (s : State) (o : Output) : frame [.outputs] s (s.emit o) := by
  intro p hp
  cases p <;> simp_all [unchanged, State.emit, State.reg, State.readByte]

/-- A repaint: the frame buffer is written and the rendering collaborator is told of it. -/
theorem frame_withFb_emit (s : State) (f : FrameBuffer) (o : Output) :
    frame [.fb, .outputs] s ((s.withFb f).emit o) := by
  have hdraw : frame [.fb, .outputs] s (s.withFb f) := frame_mono (frame_withFb s f) (by simp)
  have hnotify : frame [.fb, .outputs] (s.withFb f) ((s.withFb f).emit o) := frame_mono (frame_emit _ o) (by simp)
  exact frame_trans hdraw hnotify

/-- No pixel of the zero buffer is on: inside the grid it is a bit of a zero row, outside it `pixel` answers false. -/
theorem pixel_replicate_zero (r c : Nat) : pixel (Vector.replicate 32 0) r c = false := by
  unfold pixel
  split
  · rw [Vector.getElem_replicate, BitVec.ofNat_eq_ofNat, BitVec.getMsbD_zero, Bool.and_false]
  · rfl

theorem exec_cls (s : State) : exec .cls s = .next ((s.withFb (Vector.replicate 32 0)).emit .clearNotify) := rfl

/-- Settles O53: the instruction writes the zero buffer and emits one output; the frame is `frame_withFb_emit`. -/
theorem clearTurnsEveryPixelOff : Obligations.ClearTurnsEveryPixelOff := by
  unfold Obligations.ClearTurnsEveryPixelOff
  intro s
  exact ⟨_, exec_cls s, pixel_replicate_zero, rfl, frame_withFb_emit s _ _⟩

end Sys2Proof.Machine
end

section
/-! SUPPORT. The timer instructions (spec 46_keys_timers R236 to R238, 60_exceptions R280): FX07 is one register write,
FX15 and FX18 are one read of the clock and then one write of their own timer. -/

namespace Sys2Proof.Machine

theorem exec_ldVxDT (x : RegIdx) (s : State) : exec (.ldVxDT x) s = .next (s.setReg x s.DT.count) := rfl

theorem exec_ldDTVx (x : RegIdx) (s : State) : exec (.ldDTVx x) s = .next (s.timerSetDT (s.reg x)) := rfl

theorem exec_ldSTVx (x : RegIdx) (s : State) : exec (.ldSTVx x) s = .next (s.timerSetST (s.reg x)) := rfl

/-- The clock holds the answer it gave last, so no later answer is before it. -/
@[simp] theorem State.afterNow_clock (s : State) : s.afterNow.env.clock = s.now := rfl

@[simp] theorem State.timerSetDT_DT (s : State) (v : Byte) : (s.timerSetDT v).DT = Timer.set v s.now := rfl
@[simp] theorem State.timerSetDT_env (s : State) (v : Byte) : (s.timerSetDT v).env = s.afterNow.env := rfl
@[simp] theorem State.timerSetST_ST (s : State) (v : Byte) : (s.timerSetST v).ST = Timer.set v s.now := rfl
@[simp] theorem State.timerSetST_env (s : State) (v : Byte) : (s.timerSetST v).env = s.afterNow.env := rfl
@[simp] theorem State.timerSetST_soundCount (s : State) (v : Byte) : (s.timerSetST v).soundCount = v := rfl

@[simp] theorem Timer.set_count (v : Byte) (t : Nat) : (Timer.set v t).count = v := rfl
@[simp] theorem Timer.set_acc (v : Byte) (t : Nat) : (Timer.set v t).acc = 0 := rfl
@[simp] theorem Timer.set_ref (v : Byte) (t : Nat) : (Timer.set v t).ref = t := rfl

/-- Another delay timer is all that `withDT` changes. -/
theorem frame_withDT (s : State) (T : Timer) : frame [.DT] s (s.withDT T) := by
  intro p hp
  cases p <;> simp_all [unchanged, State.reg, State.readByte]

/-- Another sound timer is all that `withST` changes. -/
theorem frame_withST (s : State) (T : Timer) : frame [.ST] s (s.withST T) := by
  intro p hp
  cases p <;> simp_all [unchanged, State.reg, State.readByte]

/-- A read of the clock changes only the environment. -/
theorem frame_afterNow (s : State) : frame [.env] s s.afterNow := frame_withEnv s _

/-- Setting the delay timer reads the clock and leaves the sound timer alone. -/
theorem frame_timerSetDT (s : State) (v : Byte) : frame [.DT, .env] s (s.timerSetDT v) := by
  have hread : frame [.DT, .env] s s.afterNow := frame_mono (frame_afterNow s) (by simp)
  have hset : frame [.DT, .env] s.afterNow (s.timerSetDT v) := frame_mono (frame_withDT _ _) (by simp)
  exact frame_trans hread hset

/-- Setting the sound timer reads the clock and leaves the delay timer alone. -/
theorem frame_timerSetST (s : State) (v : Byte) : frame [.ST, .env] s (s.timerSetST v) := by
  have hread : frame [.ST, .env] s s.afterNow := frame_mono (frame_afterNow s) (by simp)
  have hset : frame [.ST, .env] s.afterNow (s.timerSetST v) := frame_mono (frame_withST _ _) (by simp)
  exact frame_trans hread hset

/-- Settles O58: FX07 is one register write, so its frame leaves the environment and with it the clock port alone. -/
theorem delayTimerRead : Obligations.DelayTimerRead := by
  unfold Obligations.DelayTimerRead
  intro x s
  exact exec_setReg_spec (exec_ldVxDT x s)

/-- Settles O59: each instruction leaves the state after its `TimerSet`, whose timer and environment are read off by the
lemmas above; the other timer is in the frame. -/
theorem timerSetInstructions : Obligations.TimerSetInstructions := by
  unfold Obligations.TimerSetInstructions
  intro x s
  refine ⟨?delay, ?sound⟩
  case delay =>
    refine ⟨_, exec_ldDTVx x s, ?_⟩
    simp [frame_timerSetDT]
  case sound =>
    refine ⟨_, exec_ldSTVx x s, ?_⟩
    simp [frame_timerSetST]

end Sys2Proof.Machine
end

section
/-! SUPPORT. Liveness of one step (spec 70_reset_and_hazards R321): a running machine has a next state, whichever way
the phases before the decode end, and with the quit line raised that state is the quit halt. -/

namespace Sys2Proof.Machine

/-- A step whose phases before the decode halt ends in that halt. -/
theorem step_of_fetchPhase_halt {s u : State} (hrun : s.run = .running) (hf : fetchPhase s = .halt u) :
    step s = .next u := by
  simp only [step, hrun, hf]

/-- A step that fetched a word ends in a next state, illegal words among them: DECODE is a halt, and no instruction
faults or is refused (`exec_next`). -/
theorem step_next_of_fetchPhase_word {s u : State} {w : Word} (hrun : s.run = .running)
    (hf : fetchPhase s = .word w u) : ∃ t, step s = .next t := by
  simp only [step, hrun, hf]
  cases decodeWord w with
  | none => exact ⟨_, rfl⟩
  | some i =>
    obtain ⟨t, ht⟩ := exec_next i u.advance
    exact ⟨finishStep t, by simp only [ht, afterExecute]⟩

/-- A quit request is seen before pc and memory are looked at (spec 40_step_cycle R121). -/
theorem step_quit {s : State} (hrun : s.run = .running) (hquit : s.quitAnswer = true) :
    step s = .next (s.afterQuit.takeHalt .quit 0 s.pc) :=
  step_of_fetchPhase_halt hrun (by simp only [fetchPhase, hquit, if_true])

/-- A running machine is never stuck. -/
theorem step_next {s : State} (hrun : s.run = .running) : ∃ t, step s = .next t := by
  obtain ⟨-, hf⟩ | ⟨-, -, hf⟩ | ⟨-, -, -, hf⟩ | ⟨w, -, -, -, hf⟩ := fetchPhase_cases s
  · exact ⟨_, step_of_fetchPhase_halt hrun hf⟩
  · exact ⟨_, step_of_fetchPhase_halt hrun hf⟩
  · exact ⟨_, step_of_fetchPhase_halt hrun hf⟩
  · exact step_next_of_fetchPhase_word hrun hf

/-- Settles O14: the next state is `step_next`'s, and with a quit request `step_quit` says which one it is. -/
theorem runningMachineAlwaysSteps : Obligations.RunningMachineAlwaysSteps := by
  unfold Obligations.RunningMachineAlwaysSteps
  intro s hrun
  obtain ⟨t, ht⟩ := step_next hrun
  refine ⟨t, ht, fun hquit => ?_⟩
  rw [step_quit hrun hquit] at ht
  cases ht
  exact ⟨rfl, rfl⟩

end Sys2Proof.Machine
end

section
/-! SUPPORT. Encoding (spec 30_encoding R90 to R100): the fields of a word in the three layouts, a word as the join of
its fields, and decoding and encoding as inverses. The opcode map and the table of illegal words are read off the
fields. -/

namespace Sys2Proof

/-! ## The fields of a word, and a word from its fields (R92) -/

theorem fieldOP_toNat (w : Word) : (fieldOP w).toNat = w.toNat / 4096 := by
  have hw := w.isLt
  rw [fieldOP, BitVec.extractLsb'_toNat, Nat.shiftRight_eq_div_pow]; omega

theorem fieldX_toNat (w : Word) : (fieldX w).toNat = w.toNat / 256 % 16 := by
  rw [fieldX, BitVec.extractLsb'_toNat, Nat.shiftRight_eq_div_pow]

theorem fieldY_toNat (w : Word) : (fieldY w).toNat = w.toNat / 16 % 16 := by
  rw [fieldY, BitVec.extractLsb'_toNat, Nat.shiftRight_eq_div_pow]

theorem fieldN_toNat (w : Word) : (fieldN w).toNat = w.toNat % 16 := by
  rw [fieldN, BitVec.extractLsb'_toNat, Nat.shiftRight_zero]

theorem fieldNN_toNat (w : Word) : (fieldNN w).toNat = w.toNat % 256 := by
  rw [fieldNN, BitVec.extractLsb'_toNat, Nat.shiftRight_zero]

theorem fieldNNN_toNat (w : Word) : (fieldNNN w).toNat = w.toNat % 4096 := by
  rw [fieldNNN, BitVec.extractLsb'_toNat, Nat.shiftRight_zero]

/-- Settles O4: the six fields as numbers, each by its own lemma. -/
theorem fieldsAreBitPositions : Obligations.FieldsAreBitPositions := by
  unfold Obligations.FieldsAreBitPositions
  intro w
  exact ⟨fieldOP_toNat w, fieldX_toNat w, fieldY_toNat w, fieldN_toNat w, fieldNN_toNat w, fieldNNN_toNat w⟩

section fields
variable (op : BitVec 4) (x y : RegIdx) (n : Nibble) (nn : Byte) (nnn : Addr12)

@[simp] theorem fieldOP_wordNNN : fieldOP (wordNNN op nnn) = op := BitVec.extractLsb'_append_eq_left

@[simp] theorem fieldNNN_wordNNN : fieldNNN (wordNNN op nnn) = nnn := BitVec.extractLsb'_append_eq_right

@[simp] theorem fieldOP_wordXNN : fieldOP (wordXNN op x nn) = op := by
  rw [fieldOP, wordXNN, BitVec.extractLsb'_append_eq_of_le (by decide)]
  exact BitVec.extractLsb'_append_eq_left

@[simp] theorem fieldX_wordXNN : fieldX (wordXNN op x nn) = x := by
  rw [fieldX, wordXNN, BitVec.extractLsb'_append_eq_of_le (by decide)]
  exact BitVec.extractLsb'_append_eq_right

@[simp] theorem fieldNN_wordXNN : fieldNN (wordXNN op x nn) = nn := BitVec.extractLsb'_append_eq_right

/-! The layout OP X Y N is the layout OP X NN with NN = Y N. -/

@[simp] theorem fieldOP_wordXYN : fieldOP (wordXYN op x y n) = op := fieldOP_wordXNN op x _

@[simp] theorem fieldX_wordXYN : fieldX (wordXYN op x y n) = x := fieldX_wordXNN op x _

@[simp] theorem fieldY_wordXYN : fieldY (wordXYN op x y n) = y := by
  rw [fieldY, wordXYN, BitVec.extractLsb'_append_eq_of_add_le (by decide)]
  exact BitVec.extractLsb'_append_eq_left

@[simp] theorem fieldN_wordXYN : fieldN (wordXYN op x y n) = n := by
  rw [fieldN, wordXYN, BitVec.extractLsb'_append_eq_of_add_le (by decide)]
  exact BitVec.extractLsb'_append_eq_right

end fields

/-! A word whose leading fields are known is the word of its layout. -/
section ofFields
variable {w : Word} {op : BitVec 4}

theorem wordNNN_of_fields (hop : fieldOP w = op) : wordNNN op (fieldNNN w) = w := by
  subst hop
  exact BitVec.extractLsb'_append_extractLsb'

theorem wordXNN_of_fields {nn : Byte} (hop : fieldOP w = op) (hnn : fieldNN w = nn) :
    wordXNN op (fieldX w) nn = w := by
  subst hop hnn
  have hhigh : fieldOP w ++ fieldX w = w.extractLsb' 8 8 := BitVec.extractLsb'_append_extractLsb'_eq_extractLsb' rfl
  rw [wordXNN, hhigh]
  exact BitVec.extractLsb'_append_extractLsb'

theorem wordXYN_of_fields {n : Nibble} (hop : fieldOP w = op) (hn : fieldN w = n) :
    wordXYN op (fieldX w) (fieldY w) n = w := by
  subst hn
  have hlow : fieldNN w = fieldY w ++ fieldN w :=
    (BitVec.extractLsb'_append_extractLsb'_eq_extractLsb' (start₁ := 0) (len₁ := 4) rfl).symm
  exact wordXNN_of_fields hop hlow

end ofFields

/-- The two bytes of a word, high byte first, join to the word (R90). -/
theorem joinBytes_extract (w : Word) : joinBytes (w.extractLsb' 8 8) (w.extractLsb' 0 8) = w :=
  BitVec.extractLsb'_append_extractLsb'

/-! ## Decoding and encoding are inverses (R94 to R98) -/

/-- The decoder gives every instruction back from its word. -/
@[simp] theorem decodeWord_encode (i : Instr) : decodeWord (encode i) = some i := by
  cases i
  case cls => rfl
  case ret => rfl
  all_goals simp [encode, decodeWord, decodeFamily8, decodeFamilyE, decodeFamilyF]

/-- Settles O1: the two bytes join to the instruction's word, which `decodeWord_encode` decodes. -/
theorem decodeAfterEncode : Obligations.DecodeAfterEncode := by
  unfold Obligations.DecodeAfterEncode
  intro i rest _
  simp only [encodeBytes, List.cons_append, List.nil_append, decode, joinBytes_extract, decodeWord_encode]

section families
variable {w : Word} {i : Instr}

theorem encode_of_decodeFamily0 (h : decodeFamily0 w = some i) : encode i = w := by
  unfold decodeFamily0 at h
  split at h
  · cases h; exact Eq.symm ‹_›
  · split at h
    · cases h; exact Eq.symm ‹_›
    · cases h

theorem encode_of_decodeFamily8 (hop : fieldOP w = 8#4) (h : decodeFamily8 w = some i) : encode i = w := by
  unfold decodeFamily8 at h
  split at h <;> cases h <;> exact wordXYN_of_fields hop ‹_›

theorem encode_of_decodeFamilyE (hop : fieldOP w = 14#4) (h : decodeFamilyE w = some i) : encode i = w := by
  unfold decodeFamilyE at h
  split at h <;> cases h <;> exact wordXNN_of_fields hop ‹_›

theorem encode_of_decodeFamilyF (hop : fieldOP w = 15#4) (h : decodeFamilyF w = some i) : encode i = w := by
  unfold decodeFamilyF at h
  split at h <;> cases h <;> exact wordXNN_of_fields hop ‹_›

/-- The last line of the decoder's match on OP is the family F. -/
theorem eq_fifteen_of_ne {op : BitVec 4} : op ≠ 0#4 → op ≠ 1#4 → op ≠ 2#4 → op ≠ 3#4 → op ≠ 4#4 → op ≠ 5#4 →
    op ≠ 6#4 → op ≠ 7#4 → op ≠ 8#4 → op ≠ 9#4 → op ≠ 10#4 → op ≠ 11#4 → op ≠ 12#4 → op ≠ 13#4 → op ≠ 14#4 →
    op = 15#4 := by bv_omega

/-- The word of the instruction a word decodes to is that word: family by family, OP and the selecting field are known
and the other fields are the instruction's arguments. -/
theorem encode_of_decodeWord (h : decodeWord w = some i) : encode i = w := by
  unfold decodeWord at h
  split at h
  case h_1 => exact encode_of_decodeFamily0 h
  case h_9 hop => exact encode_of_decodeFamily8 hop h
  case h_15 hop => exact encode_of_decodeFamilyE hop h
  case h_16 => exact encode_of_decodeFamilyF (by apply eq_fifteen_of_ne <;> assumption) h
  case h_6 hop | h_10 hop =>
    split at h <;> cases h
    exact wordXYN_of_fields hop ‹_›
  case h_14 hop => cases h; exact wordXYN_of_fields hop rfl
  case h_2 hop | h_3 hop | h_11 hop | h_12 hop => cases h; exact wordNNN_of_fields hop
  case h_4 hop | h_5 hop | h_7 hop | h_8 hop | h_13 hop => cases h; exact wordXNN_of_fields hop rfl

end families

/-- Settles O2, by `encode_of_decodeWord`. -/
theorem encodeAfterDecode : Obligations.EncodeAfterDecode := by
  unfold Obligations.EncodeAfterDecode
  intro w i h
  exact encode_of_decodeWord h

/-! ## The opcode map (R96) -/

open Laws in
/-- The word of an instruction selects the instruction's own row: the laws of Laws/PerInstr.lean together. -/
theorem encode_selects_opRow (i : Instr) : encode i &&& i.opRow.mask = i.opRow.pat :=
  match i with
  | .cls => EncodeRow.cls | .ret => EncodeRow.ret
  | .jp nnn => EncodeRow.jp nnn | .call nnn => EncodeRow.call nnn
  | .ldI nnn => EncodeRow.ldI nnn | .jpV0 nnn => EncodeRow.jpV0 nnn
  | .seByte x nn => EncodeRow.seByte x nn | .sneByte x nn => EncodeRow.sneByte x nn
  | .ldByte x nn => EncodeRow.ldByte x nn | .addByte x nn => EncodeRow.addByte x nn
  | .rnd x nn => EncodeRow.rnd x nn | .drw x y n => EncodeRow.drw x y n
  | .seReg x y => EncodeRow.seReg x y | .sneReg x y => EncodeRow.sneReg x y
  | .ldReg x y => EncodeRow.ldReg x y | .orReg x y => EncodeRow.orReg x y
  | .andReg x y => EncodeRow.andReg x y | .xorReg x y => EncodeRow.xorReg x y
  | .addReg x y => EncodeRow.addReg x y | .subReg x y => EncodeRow.subReg x y
  | .shr x y => EncodeRow.shr x y | .subnReg x y => EncodeRow.subnReg x y | .shl x y => EncodeRow.shl x y
  | .skp x => EncodeRow.skp x | .sknp x => EncodeRow.sknp x
  | .ldVxDT x => EncodeRow.ldVxDT x | .ldVxK x => EncodeRow.ldVxK x
  | .ldDTVx x => EncodeRow.ldDTVx x | .ldSTVx x => EncodeRow.ldSTVx x
  | .addI x => EncodeRow.addI x | .ldF x => EncodeRow.ldF x | .ldB x => EncodeRow.ldB x
  | .storeRegs x => EncodeRow.storeRegs x | .loadRegs x => EncodeRow.loadRegs x

section masks
variable {w v m : Word}

/-! Two words that agree under a mask have the same value of a field that the mask covers. -/

theorem fieldOP_of_mask (hm : fieldOP m = BitVec.allOnes 4) (h : w &&& m = v &&& m) : fieldOP w = fieldOP v := by
  have hand (u : Word) : fieldOP (u &&& m) = fieldOP u :=
    BitVec.extractLsb'_and.trans (by rw [← fieldOP, ← fieldOP, hm, BitVec.and_allOnes])
  rw [← hand w, h, hand v]

theorem fieldN_of_mask (hm : fieldN m = BitVec.allOnes 4) (h : w &&& m = v &&& m) : fieldN w = fieldN v := by
  have hand (u : Word) : fieldN (u &&& m) = fieldN u :=
    BitVec.extractLsb'_and.trans (by rw [← fieldN, ← fieldN, hm, BitVec.and_allOnes])
  rw [← hand w, h, hand v]

theorem fieldNN_of_mask (hm : fieldNN m = BitVec.allOnes 8) (h : w &&& m = v &&& m) : fieldNN w = fieldNN v := by
  have hand (u : Word) : fieldNN (u &&& m) = fieldNN u :=
    BitVec.extractLsb'_and.trans (by rw [← fieldNN, ← fieldNN, hm, BitVec.and_allOnes])
  rw [← hand w, h, hand v]

end masks

/-- A word that selects the row of an instruction decodes to an instruction of that row: the mask covers the fields that
the decoder looks at, and there the word agrees with the word of the instruction. -/
theorem decodeWord_of_selects {w : Word} (j : Instr) (h : w &&& j.opRow.mask = j.opRow.pat) :
    ∃ i, decodeWord w = some i ∧ i.opRow = j.opRow := by
  rw [← encode_selects_opRow j] at h
  cases j
  case cls | ret =>
    have hw : w = _ := BitVec.and_allOnes.symm.trans h
    subst hw
    exact ⟨_, rfl, rfl⟩
  case jp | call | ldI | jpV0 | seByte | sneByte | ldByte | addByte | rnd | drw =>
    have hop := fieldOP_of_mask (m := 0xF000) (by decide) h
    simp only [encode, fieldOP_wordNNN, fieldOP_wordXNN, fieldOP_wordXYN] at hop
    simp [decodeWord, hop, Instr.opRow]
  case seReg | sneReg | ldReg | orReg | andReg | xorReg | addReg | subReg | shr | subnReg | shl =>
    have hop := fieldOP_of_mask (m := 0xF00F) (by decide) h
    have hn := fieldN_of_mask (m := 0xF00F) (by decide) h
    simp only [encode, fieldOP_wordXYN, fieldN_wordXYN] at hop hn
    simp [decodeWord, hop, decodeFamily8, hn, Instr.opRow]
  all_goals
    have hop := fieldOP_of_mask (m := 0xF0FF) (by decide) h
    have hnn := fieldNN_of_mask (m := 0xF0FF) (by decide) h
    simp only [encode, fieldOP_wordXNN, fieldNN_wordXNN] at hop hnn
    simp [decodeWord, hop, decodeFamilyE, decodeFamilyF, hnn, Instr.opRow]

/-- A row of the map is the row of an instruction. -/
theorem exists_opRow_of_mem {r : OpRow} (hr : r ∈ opRows) : ∃ j : Instr, j.opRow = r := by
  obtain ⟨j, -, hj⟩ := List.mem_map.1 hr
  exact ⟨j, hj⟩

/-- A word selects a row exactly when it decodes to an instruction of it. -/
theorem selects_iff {w : Word} {r : OpRow} (hr : r ∈ opRows) :
    w &&& r.mask = r.pat ↔ ∃ i, decodeWord w = some i ∧ i.opRow = r := by
  obtain ⟨j, rfl⟩ := exists_opRow_of_mem hr
  refine ⟨decodeWord_of_selects j, ?_⟩
  rintro ⟨i, hi, hrow⟩
  rw [← hrow, ← encode_of_decodeWord hi, encode_selects_opRow i]

/-- Settles O3: the decoder is a function, so two rows that a word selects are the row of one instruction. -/
theorem decodeFollowsOpcodeMap : Obligations.DecodeFollowsOpcodeMap := by
  unfold Obligations.DecodeFollowsOpcodeMap
  intro w
  refine ⟨fun r hr => selects_iff hr, fun r hr q hq hsr hsq => ?_⟩
  obtain ⟨i, hi, rfl⟩ := (selects_iff hr).1 hsr
  obtain ⟨j, hj, rfl⟩ := (selects_iff hq).1 hsq
  rw [Option.some.inj (hi.symm.trans hj)]

/-- Settles O5: each word is evaluated by the decoder. -/
theorem sampleWordsDecode : Obligations.SampleWordsDecode := by
  unfold Obligations.SampleWordsDecode
  exact ⟨rfl, rfl, rfl, rfl, rfl, rfl, rfl, rfl, rfl⟩

/-! ## The illegal words (R100) -/

section illegal
variable {w : Word}

/-- The low nibbles that the last line of family 8's match leaves over. -/
theorem contains_of_ne_family8 {n : Nibble} : n ≠ 0#4 → n ≠ 1#4 → n ≠ 2#4 → n ≠ 3#4 → n ≠ 4#4 → n ≠ 5#4 → n ≠ 6#4 →
    n ≠ 7#4 → n ≠ 14#4 → [0x8, 0x9, 0xA, 0xB, 0xC, 0xD, 0xF].contains n.toNat = true := by
  have hlt := n.isLt
  intros
  simp only [List.contains_eq_mem, List.mem_cons, List.not_mem_nil, or_false, decide_eq_true_eq]
  bv_omega

theorem decodeFamily8_none_iff : decodeFamily8 w = none ↔
    [0x8, 0x9, 0xA, 0xB, 0xC, 0xD, 0xF].contains (fieldN w).toNat = true := by
  unfold decodeFamily8
  split
  case h_10 => exact iff_of_true rfl (by apply contains_of_ne_family8 <;> assumption)
  all_goals simp [*]

theorem decodeFamilyE_none_iff : decodeFamilyE w = none ↔ [0x9E, 0xA1].contains (fieldNN w).toNat = false := by
  unfold decodeFamilyE
  split <;> simp_all [← BitVec.toNat_inj]

theorem decodeFamilyF_none_iff : decodeFamilyF w = none ↔
    [0x07, 0x0A, 0x15, 0x18, 0x1E, 0x29, 0x33, 0x55, 0x65].contains (fieldNN w).toNat = false := by
  unfold decodeFamilyF
  split <;> simp_all [← BitVec.toNat_inj]

theorem decodeFamily0_none_iff : decodeFamily0 w = none ↔ (w.toNat == 0x00E0 || w.toNat == 0x00EE) = false := by
  unfold decodeFamily0
  split
  · simp_all
  · split <;> simp_all [← BitVec.toNat_inj]

/-- The decoder refuses exactly the words of R100: family by family, by the lemmas above. -/
theorem decodeWord_none_iff : decodeWord w = none ↔ illegalWord w = true := by
  simp only [illegalWord, ← fieldOP_toNat, ← fieldN_toNat, ← fieldNN_toNat]
  unfold decodeWord
  split
  case h_1 hop => simp [hop, decodeFamily0_none_iff]
  case h_9 hop => simp [hop, decodeFamily8_none_iff]
  case h_15 hop => simp [hop, decodeFamilyE_none_iff]
  case h_16 =>
    have hop : fieldOP w = 15#4 := by apply eq_fifteen_of_ne <;> assumption
    simp [hop, decodeFamilyF_none_iff]
  case h_6 hop | h_10 hop => simp [hop, ← BitVec.toNat_inj]
  all_goals simp [*]

end illegal

end Sys2Proof
end

section
/-! SUPPORT. The call stack (spec 10_state R28 to R31, 41_flow R141, R144): push and pop by the room there is, the entries
in use as a list, and CALL and RET as one push or pop and a write of pc. -/

namespace Sys2Proof.Machine

/-! ## A halt of the execute phase -/

theorem haltInstr_eq (c : HaltCause) (i : Instr) (s : State) :
    haltInstr c i s = .next (s.takeHalt c (encode i) (s.pc - 2)) := rfl

/-- What every instruction that halts leaves: the record, pc back at the instruction, and all else as it was. -/
theorem exec_halt_spec {i : Instr} {c : HaltCause} {s : State} (h : exec i s = haltInstr c i s) :
    ∃ t, exec i s = .next t ∧ haltedAt t c (encode i) (s.pc - 2) ∧ frame [.halt, .pc] s t := by
  obtain ⟨hframe, hrecord⟩ := s.takeHalt_spec c (encode i) (s.pc - 2)
  exact ⟨_, h.trans (haltInstr_eq c i s), hrecord, hframe⟩

/-! ## Push and pop -/

section pushPop
variable {s : State} (a : Word)

theorem State.push_of_room (h : s.sp < s.cfg.stackCapacity) :
    s.push a = some (s.withStack (s.stack.set s.sp a) (s.sp + 1)) := if_neg (Nat.not_le.2 h)

theorem State.push_of_full (h : ¬ s.sp < s.cfg.stackCapacity) : s.push a = none := if_pos (Nat.not_lt.1 h)

theorem State.pop_of_used (h : s.sp ≠ 0) :
    s.pop = some (s.stack.getD (s.sp - 1) 0, s.withStack s.stack (s.sp - 1)) := if_neg h

theorem State.pop_of_empty (h : s.sp = 0) : s.pop = none := if_pos h

end pushPop

/-- Other entries, another depth and another pc are all that a call or a return changes. -/
theorem frame_withStack_withPc (s : State) (e : List Word) (d : Nat) (a : Word) :
    frame [.pc, .stack] s ((s.withStack e d).withPc a) := by
  intro p hp
  cases p <;> simp_all [unchanged, State.reg, State.readByte]

/-! ## CALL and RET -/

section callRet
variable {s : State} {nnn : Addr12}

theorem exec_call_of_room (h : s.sp < s.cfg.stackCapacity) : exec (.call nnn) s
    = .next ((s.withStack (s.stack.set s.sp s.pc) (s.sp + 1)).withPc (zextAddr nnn)) := by
  simp only [exec, execCall, State.push_of_room s.pc h]

theorem exec_call_of_full (h : ¬ s.sp < s.cfg.stackCapacity) :
    exec (.call nnn) s = haltInstr .stackOverflow (.call nnn) s := by
  simp only [exec, execCall, State.push_of_full s.pc h]

theorem exec_ret_of_used (h : s.sp ≠ 0) : exec .ret s
    = .next ((s.withStack s.stack (s.sp - 1)).withPc (s.stack.getD (s.sp - 1) 0)) := by
  simp only [exec, execRet, State.pop_of_used h]

theorem exec_ret_of_empty (h : s.sp = 0) : exec .ret s = haltInstr .stackUnderflow .ret s := by
  simp only [exec, execRet, State.pop_of_empty h]

end callRet

theorem getD_set_self {l : List Word} {k : Nat} (a : Word) (h : k < l.length) : (l.set k a).getD k 0 = a := by
  simp [h]

theorem getD_set_of_ne {l : List Word} {j k : Nat} (a : Word) (h : k ≠ j) : (l.set j a).getD k 0 = l.getD k 0 := by
  simp [h.symm]

/-- Settles O34: with room the call writes one entry of the list, the depth and pc; at full depth it is a halt. -/
theorem callPushesOrOverflows : Obligations.CallPushesOrOverflows := by
  unfold Obligations.CallPushesOrOverflows
  intro nnn s hlen
  refine ⟨fun hroom => ?_, fun hfull => exec_halt_spec (exec_call_of_full (by omega))⟩
  exact ⟨_, exec_call_of_room hroom, zextAddr_toNat nnn, rfl, getD_set_self s.pc (by omega),
    fun k hk => getD_set_of_ne s.pc hk, List.length_set, frame_withStack_withPc s _ _ _⟩

/-- Settles O35: with a used entry the return writes the depth and pc; on an empty stack it is a halt. -/
theorem returnPopsOrUnderflows : Obligations.ReturnPopsOrUnderflows := by
  unfold Obligations.ReturnPopsOrUnderflows
  intro s
  refine ⟨fun hused => ?_, fun hempty => exec_halt_spec (exec_ret_of_empty hempty)⟩
  exact ⟨_, exec_ret_of_used hused, rfl, rfl, rfl, frame_withStack_withPc s _ _ _⟩

/-! ## Last in, first out -/

/-- The entries in use, the oldest first. -/
def State.usedEntries (s : State) : List Word := s.stack.take s.sp

theorem State.usedEntries_length {s : State} (h : s.sp ≤ s.stack.length) : s.usedEntries.length = s.sp :=
  List.length_take_of_le h

/-- A push adds its address behind the entries in use. -/
theorem usedEntries_push {s : State} (a : Word) (h : s.sp < s.stack.length) :
    (s.withStack (s.stack.set s.sp a) (s.sp + 1)).usedEntries = s.usedEntries ++ [a] := by
  simp only [State.usedEntries, State.withStack_stack, State.withStack_sp]
  rw [List.take_add_one, List.take_set_of_le (Nat.le_refl _), List.getElem?_set_self h, Option.toList_some]

/-- A pop takes the last of the entries in use away. -/
theorem pop_of_usedEntries {s : State} {p : List Word} {a : Word} (hlen : s.sp ≤ s.stack.length)
    (h : s.usedEntries = p ++ [a]) :
    s.pop = some (a, s.withStack s.stack (s.sp - 1)) ∧ (s.withStack s.stack (s.sp - 1)).usedEntries = p := by
  have hsp : s.sp = p.length + 1 := by
    rw [← State.usedEntries_length hlen, h, List.length_append, List.length_singleton]
  have hlt : p.length < s.stack.length := by omega
  rw [State.usedEntries, hsp, List.take_add_one, List.getElem?_eq_getElem hlt, Option.toList_some] at h
  obtain ⟨hp, ha⟩ := List.append_inj' h rfl
  refine ⟨?_, ?_⟩
  · rw [State.pop_of_used (by omega), hsp, Nat.add_sub_cancel, List.getD_eq_getElem?_getD, List.getElem?_eq_getElem hlt,
      Option.getD_some, List.singleton_inj.1 ha]
  · simpa [State.usedEntries, hsp] using hp

/-- Pushing a list adds it behind the entries in use, as long as there is room. -/
theorem pushAll_spec (as : List Word) : ∀ s : State, s.stack.length = s.cfg.stackCapacity →
    s.sp + as.length ≤ s.cfg.stackCapacity →
    ∃ t, s.pushAll as = some t ∧ t.stack.length = s.stack.length ∧ t.cfg = s.cfg ∧ t.sp = s.sp + as.length
      ∧ t.usedEntries = s.usedEntries ++ as := by
  induction as with
  | nil => intro s _ _; exact ⟨s, rfl, rfl, rfl, rfl, by simp⟩
  | cons a as ih =>
    intro s hlen hroom
    rw [List.length_cons] at hroom
    obtain ⟨t, ht, hlen', hcfg, hsp, hused⟩ := ih (s.withStack (s.stack.set s.sp a) (s.sp + 1))
      (by simpa using hlen) (by simp only [State.withStack_sp, State.withStack_cfg]; omega)
    refine ⟨t, ?_, by simpa using hlen', hcfg, ?_, ?_⟩
    · rw [State.pushAll, State.push_of_room a (by omega)]; exact ht
    · rw [hsp, State.withStack_sp, List.length_cons]; omega
    · rw [hused, usedEntries_push a (by omega), List.append_assoc]; rfl

/-- Popping gives the last entries in use, the newest first. -/
theorem popAll_spec (as : List Word) : ∀ (s : State) (p : List Word), s.sp ≤ s.stack.length →
    s.usedEntries = p ++ as.reverse → ∃ u, s.popAll as.length = some (as, u) ∧ u.sp = p.length := by
  induction as with
  | nil =>
    intro s p hlen h
    refine ⟨s, rfl, ?_⟩
    rw [← State.usedEntries_length hlen, h, List.reverse_nil, List.append_nil]
  | cons a as ih =>
    intro s p hlen h
    rw [List.reverse_cons, ← List.append_assoc] at h
    obtain ⟨hpop, hused⟩ := pop_of_usedEntries hlen h
    obtain ⟨u, hu, hsp⟩ := ih _ p (by simp only [State.withStack_sp, State.withStack_stack]; omega) hused
    exact ⟨u, by simp only [List.length_cons, State.popAll, hpop, hu], hsp⟩

/-- Settles O37: the entries in use grow by the list pushed (`pushAll_spec`), and popping takes it off from its end
(`popAll_spec`). -/
theorem stackIsLastInFirstOut : Obligations.StackIsLastInFirstOut := by
  unfold Obligations.StackIsLastInFirstOut
  intro s as hlen hroom
  obtain ⟨t, ht, htlen, hcfg, hsp, hused⟩ := pushAll_spec as s hlen hroom
  refine ⟨t, ht, ?_, fun hfull a => State.push_of_full a (by rw [hcfg]; omega)⟩
  obtain ⟨u, hu, husp⟩ := popAll_spec as.reverse t s.usedEntries (by omega) (by rw [List.reverse_reverse, hused])
  rw [List.length_reverse] at hu
  exact ⟨u, hu, husp.trans (State.usedEntries_length (by omega))⟩

end Sys2Proof.Machine
end

section
/-! SUPPORT. Arithmetic with a flag (spec 43_alu R160, R167 to R177): one write of V[X] and then one of V[0xF], which
`FLAG_POLICY` may leave out. What the two writes leave is said once; each instruction adds the value and the flag. -/

namespace Sys2Proof.Machine

theorem exec_addReg (x y : RegIdx) (s : State) : exec (.addReg x y) s
    = .next ((s.setReg x (s.reg x + s.reg y)).setPolicyFlag (carryOf (s.reg x) (s.reg y))) := rfl

theorem exec_subReg (x y : RegIdx) (s : State) : exec (.subReg x y) s
    = .next ((s.setReg x (s.reg x - s.reg y)).setFlag (noBorrow (s.reg x) (s.reg y))) := rfl

theorem exec_shr (x y : RegIdx) (s : State) : exec (.shr x y) s
    = .next ((s.setReg x (s.reg x >>> 1)).setPolicyFlag (shiftedOutRight (s.reg x))) := rfl

theorem exec_subnReg (x y : RegIdx) (s : State) : exec (.subnReg x y) s
    = .next ((s.setReg x (s.reg y - s.reg x)).setFlag (noBorrow (s.reg y) (s.reg x))) := rfl

theorem exec_shl (x y : RegIdx) (s : State) : exec (.shl x y) s
    = .next ((s.setReg x (s.reg x <<< 1)).setPolicyFlag (shiftedOutLeft (s.reg x))) := rfl

/-! ## The result and the flag in the registers -/

theorem frame_setReg_setFlag (s : State) (x : RegIdx) (v : Byte) (b : Bool) :
    frame [.V] s ((s.setReg x v).setFlag b) := frame_trans (frame_setReg s x v) (frame_setReg _ _ _)

theorem frame_setReg_setPolicyFlag (s : State) (x : RegIdx) (v : Byte) (b : Bool) :
    frame [.V] s ((s.setReg x v).setPolicyFlag b) := frame_trans (frame_setReg s x v) (frame_setPolicyFlag _ b)

/-- The flag is written last, so it stands in V[0xF] also when X = 0xF. -/
theorem reg_flag_setFlag (s : State) (b : Bool) : (s.setFlag b).reg 0xF = flagByte b := by
  rw [State.reg_setFlag, if_pos rfl]

theorem reg_setReg_setFlag (s : State) {x : RegIdx} (v : Byte) (b : Bool) (hx : x ≠ 0xF) :
    ((s.setReg x v).setFlag b).reg x = v := by
  rw [State.reg_setFlag, if_neg hx, State.reg_setReg_self]

theorem setPolicyFlag_canonical {s : State} (b : Bool) (h : s.cfg.flagPolicy = .canonical) :
    s.setPolicyFlag b = s.setFlag b := by rw [State.setPolicyFlag, h]

theorem setPolicyFlag_reference {s : State} (b : Bool) (h : s.cfg.flagPolicy = .reference) :
    s.setPolicyFlag b = s := by rw [State.setPolicyFlag, h]

/-- What every instruction does that writes a result and then a flag. -/
theorem exec_setFlag_spec {i : Instr} {x : RegIdx} {v : Byte} {b : Bool} {s : State}
    (h : exec i s = .next ((s.setReg x v).setFlag b)) :
    ∃ t, exec i s = .next t ∧ frame [.V] s t ∧ sameRegsExcept [x, 0xF] s t ∧ t.reg 0xF = flagByte b
      ∧ (x ≠ 0xF → t.reg x = v) :=
  ⟨_, h, frame_setReg_setFlag s x v b, sameRegsExcept_setFlag s x v b, reg_flag_setFlag _ b,
    fun hx => reg_setReg_setFlag s v b hx⟩

/-- What every instruction does that writes a result and then, under `canonical` alone, a flag. -/
theorem exec_setPolicyFlag_spec {i : Instr} {x : RegIdx} {v : Byte} {b : Bool} {s : State}
    (h : exec i s = .next ((s.setReg x v).setPolicyFlag b)) :
    ∃ t, exec i s = .next t ∧ frame [.V] s t
      ∧ (s.cfg.flagPolicy = .canonical →
          t.reg 0xF = flagByte b ∧ (x ≠ 0xF → t.reg x = v) ∧ sameRegsExcept [x, 0xF] s t)
      ∧ (s.cfg.flagPolicy = .reference → t.reg x = v ∧ sameRegsExcept [x] s t) := by
  refine ⟨_, h, frame_setReg_setPolicyFlag s x v b, fun hc => ?canonical, fun hr => ?reference⟩
  case canonical =>
    rw [setPolicyFlag_canonical (s := s.setReg x v) b hc]
    exact ⟨reg_flag_setFlag _ b, fun hx => reg_setReg_setFlag s v b hx, sameRegsExcept_setFlag s x v b⟩
  case reference =>
    rw [setPolicyFlag_reference (s := s.setReg x v) b hr]
    exact ⟨s.reg_setReg_self x v, sameRegsExcept_setReg s x v⟩

/-! ## The flags as numbers -/

theorem flagByte_carryOf (a b : Byte) : (flagByte (carryOf a b)).toNat = if 255 < a.toNat + b.toNat then 1 else 0 := by
  simp only [flagByte_toNat, carryOf, decide_eq_true_eq]

theorem flagByte_noBorrow (a b : Byte) : (flagByte (noBorrow a b)).toNat = if b.toNat ≤ a.toNat then 1 else 0 := by
  simp only [flagByte_toNat, noBorrow, decide_eq_true_eq]

theorem flagByte_shiftedOutRight (a : Byte) : (flagByte (shiftedOutRight a)).toNat = a.toNat % 2 := by
  rw [flagByte_toNat, shiftedOutRight, BitVec.getLsbD, Nat.testBit_zero]
  split <;> simp_all

theorem flagByte_shiftedOutLeft (a : Byte) : (flagByte (shiftedOutLeft a)).toNat = a.toNat / 128 := by
  have ha := a.isLt
  simp only [flagByte_toNat, shiftedOutLeft, BitVec.getLsbD, Nat.testBit_eq_decide_div_mod_eq, decide_eq_true_eq]
  split <;> omega

/-! ## The results as numbers -/

theorem byte_add_toNat (a b : Byte) : (a + b).toNat = (a.toNat + b.toNat) % 256 := BitVec.toNat_add a b

theorem byte_sub_toNat (a b : Byte) : (a - b).toNat = (a.toNat + 256 - b.toNat) % 256 := by
  have hb := b.isLt
  rw [BitVec.toNat_sub]; congr 1; omega

theorem byte_shr_one_toNat (a : Byte) : (a >>> 1).toNat = a.toNat / 2 := by
  rw [BitVec.toNat_ushiftRight, Nat.shiftRight_eq_div_pow]

theorem byte_shl_one_toNat (a : Byte) : (a <<< 1).toNat = a.toNat * 2 % 256 := by
  rw [BitVec.toNat_shiftLeft, Nat.shiftLeft_eq]

/-- Settles O43: a sum and its carry through `exec_setPolicyFlag_spec`. -/
theorem addWritesCarry : Obligations.AddWritesCarry := by
  unfold Obligations.AddWritesCarry
  intro x y s
  simp only [← byte_add_toNat, ← flagByte_carryOf, BitVec.toNat_inj]
  exact exec_setPolicyFlag_spec (exec_addReg x y s)

/-- Settles O44: a difference and its no-borrow flag through `exec_setFlag_spec`, once in each order. -/
theorem subtractsWriteNoBorrow : Obligations.SubtractsWriteNoBorrow := by
  unfold Obligations.SubtractsWriteNoBorrow
  intro x y s
  simp only [← byte_sub_toNat, ← flagByte_noBorrow, BitVec.toNat_inj]
  exact ⟨exec_setFlag_spec (exec_subReg x y s), exec_setFlag_spec (exec_subnReg x y s)⟩

/-- Settles O45: a shift in place and the bit shifted out through `exec_setPolicyFlag_spec`. -/
theorem shiftsByOne : Obligations.ShiftsByOne := by
  unfold Obligations.ShiftsByOne
  intro x y s
  simp only [← byte_shr_one_toNat, ← byte_shl_one_toNat, ← flagByte_shiftedOutRight, ← flagByte_shiftedOutLeft,
    BitVec.toNat_inj]
  exact ⟨exec_setPolicyFlag_spec (exec_shr x y s), exec_setPolicyFlag_spec (exec_shl x y s)⟩

end Sys2Proof.Machine
end

section
/-! SUPPORT. The index register (spec 44_index_memory R191, R192, R194), the keys (46_keys_timers R232 to R235) and the
wait for a key (R234). -/

namespace Sys2Proof.Machine

/-! ## The index register -/

/-- Another index register is all that `withI` changes. -/
theorem frame_withI (s : State) (v : Word) : frame [.I] s (s.withI v) := by
  intro p hp
  cases p <;> simp_all [unchanged, State.reg, State.readByte]

theorem exec_ldI (nnn : Addr12) (s : State) : exec (.ldI nnn) s = .next (s.withI (zextAddr nnn)) := rfl

theorem exec_addI (x : RegIdx) (s : State) : exec (.addI x) s = .next (s.withI (s.I + zextByte (s.reg x))) := rfl

theorem exec_ldF (x : RegIdx) (s : State) : exec (.ldF x) s = .next (s.withI (glyphAddr s.cfg (s.reg x))) := rfl

/-- The constraint of R6 puts the font below 512, so the sum of FX29 does not wrap. -/
theorem glyphAddr_toNat {c : Config} (h : c.legal = true) (v : Byte) :
    (glyphAddr c v).toNat = c.fontBase + 5 * v.toNat := by
  have hv := v.isLt
  obtain ⟨-, hbase⟩ : _ ∧ c.fontBase + 80 ≤ 512 := by
    simpa [Config.legal, fontGlyphs, glyphBytes, loadBase] using h
  rw [glyphAddr, BitVec.toNat_ofNat, glyphBytes, Nat.mod_eq_of_lt (by omega)]

/-- Settles O47: each instruction is one write of I. -/
theorem indexRegisterResults : Obligations.IndexRegisterResults := by
  unfold Obligations.IndexRegisterResults
  intro nnn x s hlegal
  refine ⟨⟨_, exec_ldI nnn s, zextAddr_toNat nnn, frame_withI s _⟩, ⟨_, exec_addI x s, ?_, frame_withI s _⟩,
    ⟨_, exec_ldF x s, glyphAddr_toNat hlegal (s.reg x), frame_withI s _⟩⟩
  rw [State.withI_I, BitVec.toNat_add, zextByte_toNat]

/-! ## The keys -/

theorem exec_skp (x : RegIdx) (s : State) :
    exec (.skp x) s = .next (s.afterKeyDown.skipIf (s.keyDownAnswer (keyOf (s.reg x)))) := rfl

theorem exec_sknp (x : RegIdx) (s : State) :
    exec (.sknp x) s = .next (s.afterKeyDown.skipIf (!s.keyDownAnswer (keyOf (s.reg x)))) := rfl

/-- The key code is the low four bits (R235). -/
theorem keyOf_eq {k : KeyCode} {b : Byte} (h : k.toNat = b.toNat % 16) : keyOf b = k := by
  apply BitVec.eq_of_toNat_eq
  rw [keyOf, BitVec.extractLsb'_toNat, Nat.shiftRight_zero, h]

theorem skipIf_env (s : State) (b : Bool) : (s.skipIf b).env = s.env := by cases b <;> rfl

/-- A read of the keys and a skip. -/
theorem frame_afterKeyDown_skipIf (s : State) (b : Bool) : frame [.pc, .env] s (s.afterKeyDown.skipIf b) := by
  have hread : frame [.pc, .env] s s.afterKeyDown := frame_mono (frame_withEnv s _) (by simp)
  have hskip : frame [.pc, .env] s.afterKeyDown (s.afterKeyDown.skipIf b) := frame_mono (frame_skipIf _ b) (by simp)
  exact frame_trans hread hskip

/-- Settles O39: each instruction is one read of the keys and one skip on the answer for `keyOf (V[X])`. -/
theorem keySkipsUseLowNibble : Obligations.KeySkipsUseLowNibble := by
  unfold Obligations.KeySkipsUseLowNibble
  intro x k s hk
  rw [← keyOf_eq hk]
  exact ⟨⟨_, exec_skp x s, State.skipIf_pc s.afterKeyDown Iff.rfl, skipIf_env _ _, frame_afterKeyDown_skipIf s _⟩,
    _, exec_sknp x s, State.skipIf_pc s.afterKeyDown (iff_of_eq (Bool.not_eq_true' _)), skipIf_env _ _,
      frame_afterKeyDown_skipIf s _⟩

/-! ## The wait for a key -/

theorem exec_ldVxK_blocked {s : State} (x : RegIdx) (h : s.keyWaitAnswer = none) :
    exec (.ldVxK x) s = .next s.afterKeyWait.retreat := by
  simp only [exec, execLdVxK, h]

theorem exec_ldVxK_key {s : State} {k : KeyCode} (x : RegIdx) (h : s.keyWaitAnswer = some k) :
    exec (.ldVxK x) s = .next (s.afterKeyWait.setReg x (zextKey k)) := by
  simp only [exec, execLdVxK, h]

/-- Back at the instruction: the wait undoes the advance of the fetch. -/
theorem advance_afterKeyWait_retreat_pc (s : State) : s.advance.afterKeyWait.retreat.pc = s.pc :=
  BitVec.add_sub_cancel _ _

theorem frame_afterKeyWait_retreat (s : State) : frame [.pc, .env] s s.afterKeyWait.retreat := by
  have hread : frame [.pc, .env] s s.afterKeyWait := frame_mono (frame_withEnv s _) (by simp)
  exact frame_trans hread (frame_mono (frame_withPc _ _) (by simp))

theorem frame_afterKeyWait_setReg (s : State) (x : RegIdx) (v : Byte) :
    frame [.V, .env] s (s.afterKeyWait.setReg x v) := by
  have hread : frame [.V, .env] s s.afterKeyWait := frame_mono (frame_withEnv s _) (by simp)
  exact frame_trans hread (frame_mono (frame_setReg _ _ _) (by simp))

theorem zextKey_toNat (k : KeyCode) : (zextKey k).toNat = k.toNat := BitVec.toNat_setWidth_of_le (by decide)

/-- Settles O56: the answer of the one read decides between the wait and the register write. -/
theorem keyWaitBlocksOrLoads : Obligations.KeyWaitBlocksOrLoads := by
  unfold Obligations.KeyWaitBlocksOrLoads
  intro x s
  cases hk : s.keyWaitAnswer with
  | none =>
    refine ⟨_, exec_ldVxK_blocked (s := s.advance) x hk, rfl, frame_mono (frame_afterKeyWait_retreat _) (by simp),
      fun _ => ⟨advance_afterKeyWait_retreat_pc s, fun r => State.reg_congr rfl r⟩, nofun⟩
  | some k =>
    refine ⟨_, exec_ldVxK_key (s := s.advance) x hk, rfl, frame_mono (frame_afterKeyWait_setReg _ _ _) (by simp),
      nofun, ?_⟩
    rintro k' ⟨⟩
    refine ⟨rfl, ?_, fun r hr => ?_⟩
    · rw [State.reg_setReg_self, zextKey_toNat]
    · rw [sameRegsExcept_setReg _ x _ r hr]
      exact State.reg_congr rfl r

end Sys2Proof.Machine
end

section
/-! SUPPORT. The decay of a timer (spec 60_exceptions R280 to R283): what one decay takes, and that many decays between a
set and a time take together what one decay at that time would. -/

namespace Sys2Proof.Machine

theorem Timer.decay_of_zero {T : Timer} (tick t : Nat) (h : T.count = 0) : T.decay tick t = ⟨0, 0, t⟩ := if_pos h

/-- One decay of a timer that counts: `k` whole ticks have accumulated, at most the count of them are taken. -/
theorem Timer.decay_of_counting {tick : Nat} (ht : 0 < tick) (t : Nat) {T : Timer} (h : T.count ≠ 0) :
    (T.decay tick t).count.toNat = T.count.toNat - min T.count.toNat ((T.acc + (t - T.ref)) / tick)
      ∧ (T.decay tick t).acc
          = T.acc + (t - T.ref) - tick * min T.count.toNat ((T.acc + (t - T.ref)) / tick)
      ∧ (T.decay tick t).ref = t := by
  rw [Timer.decay, if_neg h, decayLoop_eq tick ht]
  refine ⟨?_, rfl, rfl⟩
  rw [BitVec.toNat_ofNat, Nat.mod_eq_of_lt (Nat.lt_of_le_of_lt (Nat.sub_le _ _) T.count.isLt)]

/-- Settles O31: a timer at zero, and one that counts. -/
theorem decayTakesWholeTicks : Obligations.DecayTakesWholeTicks := by
  unfold Obligations.DecayTakesWholeTicks
  intro tick t T ht _
  exact ⟨Timer.decay_of_zero tick t, Timer.decay_of_counting ht t⟩

/-- A timer set to `v` at `t0` and decayed last at `u` has given off the whole ticks between the two, and while it counts
the rest of that time is accumulated. -/
def CountsDown (tick v t0 u : Nat) (T : Timer) : Prop :=
  T.ref = u ∧ T.count.toNat = v - min v ((u - t0) / tick) ∧ (T.count ≠ 0 → T.acc = (u - t0) % tick)

theorem countsDown_set (tick : Nat) (v : Byte) (t0 : Nat) : CountsDown tick v.toNat t0 t0 (Timer.set v t0) := by
  simp [CountsDown]

/-- A later decay takes the ticks that have passed since; a count at zero stays there. -/
theorem CountsDown.decay {tick v t0 u t : Nat} {T : Timer} (ht : 0 < tick) (h0 : t0 ≤ u) (hu : u ≤ t)
    (h : CountsDown tick v t0 u T) : CountsDown tick v t0 t (T.decay tick t) := by
  obtain ⟨href, hcount, hacc⟩ := h
  by_cases hz : T.count = 0
  · have hmono : (u - t0) / tick ≤ (t - t0) / tick := Nat.div_le_div_right (by omega)
    have hv : v - min v ((u - t0) / tick) = 0 := by rw [← hcount, hz]; rfl
    rw [Timer.decay_of_zero tick t hz]
    refine ⟨rfl, ?_, fun hne => absurd rfl hne⟩
    simp only [BitVec.ofNat_eq_ofNat, BitVec.toNat_ofNat]; omega
  · have hpos : T.count.toNat ≠ 0 := fun h0 => hz (BitVec.eq_of_toNat_eq h0)
    obtain ⟨hcount', hacc', href'⟩ := Timer.decay_of_counting ht t hz
    have hsplit : t - t0 = (u - t0) % tick + (t - u) + tick * ((u - t0) / tick) := by
      have := Nat.mod_add_div (u - t0) tick; omega
    have hdiv : (t - t0) / tick = ((u - t0) % tick + (t - u)) / tick + (u - t0) / tick := by
      rw [hsplit, Nat.add_mul_div_left _ _ ht]
    have hmod : (t - t0) % tick = ((u - t0) % tick + (t - u)) % tick := by rw [hsplit, Nat.add_mul_mod_self_left]
    rw [hacc hz, href] at hcount' hacc'
    refine ⟨href', by rw [hcount', hcount, hdiv]; omega, fun hne => ?_⟩
    have hne' : (T.decay tick t).count.toNat ≠ 0 := fun h0 => hne (BitVec.eq_of_toNat_eq h0)
    have hmin : min T.count.toNat (((u - t0) % tick + (t - u)) / tick) = ((u - t0) % tick + (t - u)) / tick := by omega
    rw [hacc', hmin, hmod]
    exact (Nat.mod_eq_sub _ _).symm

/-- Decays at rising times, the last one at `t`. -/
theorem CountsDown.foldl_decay {tick v t0 : Nat} (ht : 0 < tick) (between : List Nat) (t : Nat) :
    ∀ (u : Nat) (T : Timer), t0 ≤ u → (u :: (between ++ [t])).Pairwise (· ≤ ·) → CountsDown tick v t0 u T →
      CountsDown tick v t0 t ((between ++ [t]).foldl (fun T u => T.decay tick u) T) := by
  induction between with
  | nil =>
    intro u T h0 hsorted h
    exact h.decay ht h0 (List.rel_of_pairwise_cons hsorted (by simp))
  | cons b between ih =>
    intro u T h0 hsorted h
    have hub : u ≤ b := List.rel_of_pairwise_cons hsorted (by simp)
    exact ih b _ (Nat.le_trans h0 hub) hsorted.of_cons (h.decay ht h0 hub)

/-- Settles O30: the count is the one of `CountsDown` after the last decay. -/
theorem timerCountAfterDecays : Obligations.TimerCountAfterDecays := by
  unfold Obligations.TimerCountAfterDecays
  intro tick v t0 between t ht hsorted
  obtain ⟨-, hcount, -⟩ :=
    CountsDown.foldl_decay ht between t t0 _ (Nat.le_refl t0) hsorted (countsDown_set tick v t0)
  exact hcount

end Sys2Proof.Machine
end

section
/-! SUPPORT. Memory (spec 20_memory R62 to R69, 44_index_memory R196 to R200): the canonical form determines the list, one
byte, and the blocks that FX33, FX55 and FX65 move. -/

namespace Sys2Proof.Machine

/-! ## The canonical form -/

/-- An address that is not listed reads as its default. -/
theorem Memory.read_of_unlisted (d : Nat → Byte) {m : List Host.Cell} {a : Nat} (h : ∀ c ∈ m, c.1 ≠ a) :
    Memory.read d m a = d a := by
  induction m with
  | nil => rfl
  | cons c rest ih =>
    rw [Memory.read, if_neg (h c List.mem_cons_self), ih fun c hc => h c (List.mem_cons_of_mem _ hc)]

/-- The first entry of a canonical list: its address is below the others, its byte is not the default, and the rest is
canonical. -/
theorem Memory.wf_cons {d : Nat → Byte} {c : Host.Cell} {m : List Host.Cell} (h : Memory.wf d (c :: m)) :
    (∀ p ∈ m, c.1 < p.1) ∧ c.2 ≠ d c.1 ∧ Memory.wf d m := by
  obtain ⟨hsorted, hcells⟩ := h
  obtain ⟨hbelow, hrest⟩ := List.pairwise_cons.1 hsorted
  exact ⟨hbelow, (hcells c List.mem_cons_self).2, hrest, fun p hp => hcells p (List.mem_cons_of_mem _ hp)⟩

/-- Below its first address a canonical list reads as the default. -/
theorem Memory.read_below {d : Nat → Byte} {c : Host.Cell} {m : List Host.Cell} {a : Nat} (h : Memory.wf d (c :: m))
    (ha : a < c.1) : Memory.read d (c :: m) a = d a := by
  obtain ⟨hbelow, -, -⟩ := Memory.wf_cons h
  apply Memory.read_of_unlisted
  intro p hp
  rcases List.mem_cons.1 hp with rfl | hp
  · omega
  · have := hbelow p hp; omega

/-- The first address of a canonical list reads as the byte listed. -/
theorem Memory.read_first (d : Nat → Byte) (c : Host.Cell) (m : List Host.Cell) :
    Memory.read d (c :: m) c.1 = c.2 := if_pos rfl

/-- The rest of a canonical list reads as the whole list, but for its first address, which it does not list. -/
theorem Memory.read_rest {d : Nat → Byte} {c : Host.Cell} {m : List Host.Cell} (h : Memory.wf d (c :: m)) (a : Nat) :
    Memory.read d m a = if a = c.1 then d a else Memory.read d (c :: m) a := by
  obtain ⟨hbelow, -, -⟩ := Memory.wf_cons h
  split
  · rename_i ha
    exact Memory.read_of_unlisted d fun p hp => by have := hbelow p hp; omega
  · rename_i ha
    rw [Memory.read, if_neg (Ne.symm ha)]

/-- Settles O8, by induction on both lists: an entry whose address the other list does not have would read differently,
so the first addresses agree, then the first bytes, and the rests read alike. -/
theorem canonicalMemoriesAreEqual : Obligations.CanonicalMemoriesAreEqual := by
  unfold Obligations.CanonicalMemoriesAreEqual
  intro d m
  induction m with
  | nil =>
    intro n _ hn hread
    cases n with
    | nil => rfl
    | cons c n =>
      obtain ⟨-, hc, -⟩ := Memory.wf_cons hn
      exact absurd ((Memory.read_first d c n).symm.trans (hread c.1).symm) hc
  | cons c m ih =>
    intro n hm hn hread
    obtain ⟨-, hc, hm'⟩ := Memory.wf_cons hm
    cases n with
    | nil => exact absurd ((Memory.read_first d c m).symm.trans (hread c.1)) hc
    | cons e n =>
      obtain ⟨-, he, hn'⟩ := Memory.wf_cons hn
      have hkey : c.1 = e.1 := by
        rcases Nat.lt_trichotomy c.1 e.1 with hlt | heq | hgt
        · exact absurd (((Memory.read_first d c m).symm.trans (hread c.1)).trans (Memory.read_below hn hlt)) hc
        · exact heq
        · exact absurd (((Memory.read_first d e n).symm.trans (hread e.1).symm).trans (Memory.read_below hm hgt)) he
      have hbyte : c.2 = e.2 := by
        rw [← Memory.read_first d c m, hread c.1, hkey, Memory.read_first]
      have hrest : m = n := ih n hm' hn' fun a => by
        rw [Memory.read_rest hm a, Memory.read_rest hn a, hread a, hkey]
      rw [Prod.ext hkey hbyte, hrest]

/-! ## One byte -/

theorem resolve_of_lt {c : Config} {addr : Nat} (h : addr < memSize) : resolve c addr = some addr := if_pos h

theorem resolve_of_fault {c : Config} {addr : Nat} (h : ¬ addr < memSize) (hp : c.oobPolicy = .fault) :
    resolve c addr = none := by simp only [resolve, if_neg h, hp]

theorem resolve_of_wrap {c : Config} {addr : Nat} (h : ¬ addr < memSize) (hp : c.oobPolicy = .wrap) :
    resolve c addr = some (addr % memSize) := by simp only [resolve, if_neg h, hp]

section oneByte
variable {s : State} {addr a : Nat}

theorem State.memRead_of_resolve (h : resolve s.cfg addr = some a) : s.memRead addr = some (s.readByte a) := by
  simp only [State.memRead, h]

theorem State.memRead_of_unresolved (h : resolve s.cfg addr = none) : s.memRead addr = none := by
  simp only [State.memRead, h]

theorem State.memWrite_of_resolve (v : Byte) (h : resolve s.cfg addr = some a) :
    s.memWrite addr v = some (s.writeByte a v) := by simp only [State.memWrite, h]

theorem State.memWrite_of_unresolved (v : Byte) (h : resolve s.cfg addr = none) : s.memWrite addr v = none := by
  simp only [State.memWrite, h]

theorem byteAt_of_resolve (h : resolve s.cfg addr = some a) : byteAt s addr = s.readByte a := by
  rw [byteAt, State.memRead_of_resolve h, Option.getD_some]

end oneByte

/-- Settles O7: `resolve` by range and policy, and a byte read and write at the address it gives. -/
theorem addressesAndByteAccesses : Obligations.AddressesAndByteAccesses := by
  unfold Obligations.AddressesAndByteAccesses
  intro s addr v
  refine ⟨fun h => resolve_of_lt (Nat.lt_succ_of_le h), fun h => resolve_of_fault (Nat.not_lt.2 h),
    fun h => resolve_of_wrap (Nat.not_lt.2 h), rfl, fun a ha => ⟨State.memRead_of_resolve ha, ?_⟩,
    fun h => ⟨State.memRead_of_unresolved h, State.memWrite_of_unresolved v h⟩⟩
  exact ⟨_, State.memWrite_of_resolve v ha, by rw [State.readByte_writeByte, if_pos rfl],
    fun b hb => by rw [State.readByte_writeByte, if_neg hb], frame_withMem s _⟩

/-! ## Blocks -/

/-- A block of at most the memory's size in range is written at the addresses its own resolve to, and nowhere else. -/
theorem State.memWriteBytes_spec (s : State) {bs : List Byte} (hlen : bs.length ≤ memSize)
    (h : blockInRange s.cfg s.dataBase bs.length) : ∃ t, s.memWriteBytes s.dataBase bs = some t ∧ frame [.mem] s t
      ∧ (∀ k (hk : k < bs.length) a, resolve s.cfg (s.dataBase + k) = some a → t.readByte a = bs[k])
      ∧ (∀ b, (∀ k, k < bs.length → resolve s.cfg (s.dataBase + k) ≠ some b) → t.readByte b = s.readByte b) := by
  obtain ⟨m, hwrite, hout, hin, -⟩ := s.memWriteBytes_inRange bs s.dataBase h
  refine ⟨_, hwrite, frame_withMem s m, fun k hk a ha => ?_, fun b hb => ?_⟩
  · rw [resolve_eq_mod ha, hin hlen k hk]
  · exact hout b fun k hk heq => hb k hk (by rw [heq, resolve_of_block h hk])

/-- Under `fault` a block with a byte beyond the memory is not in range. -/
theorem not_blockInRange {c : Config} {addr n : Nat} (hp : c.oobPolicy = .fault) (hn : n ≠ 0)
    (h : memSize < addr + n) : ¬ blockInRange c addr n := by
  rintro (hw | hle | h0)
  · rw [hp] at hw; cases hw
  · omega
  · exact hn h0

/-- The bytes a block read gives for a block in range. -/
def blockBytes (s : State) (n : Nat) : List Byte := (List.range n).map fun k => byteAt s (s.dataBase + k)

theorem blockBytes_length (s : State) (n : Nat) : (blockBytes s n).length = n := by simp [blockBytes]

theorem blockBytes_getD (s : State) {n k : Nat} (h : k < n) :
    (blockBytes s n).getD k 0 = byteAt s (s.dataBase + k) := by simp [blockBytes, h]

theorem blockLast_eq (c : Config) (x : RegIdx) : blockLast c x = if c.regBlock = .all16 then 15 else x := by
  unfold blockLast; cases c.regBlock <;> rfl

/-! ## FX33 -/

section bcd
variable {x : RegIdx} {s t : State}

theorem exec_ldB_of_write (h : s.memWriteBytes s.dataBase (bcdDigits (s.reg x)) = some t) :
    exec (.ldB x) s = .next t := by simp only [exec, execLdB, h]

theorem exec_ldB_outOfRange (h : ¬ blockInRange s.cfg s.dataBase 3) :
    exec (.ldB x) s = haltInstr .memRange (.ldB x) s := by
  simp only [exec, execLdB, s.memWriteBytes_outOfRange (bcdDigits (s.reg x)) s.dataBase h]

end bcd

/-- A decimal digit of a byte fits in a byte. -/
theorem digit_toNat {v : Byte} {n : Nat} (h : n ≤ v.toNat) : (BitVec.ofNat 8 n).toNat = n := by
  rw [BitVec.toNat_ofNat, Nat.mod_eq_of_lt (Nat.lt_of_le_of_lt h v.isLt)]

/-- Settles O48: a block write of the three digits, or the halt. -/
theorem bcdStoresDigits : Obligations.BcdStoresDigits := by
  unfold Obligations.BcdStoresDigits
  intro x s
  refine ⟨fun hrange => ?stores, fun hp hout => exec_halt_spec (exec_ldB_outOfRange ?halts)⟩
  case halts => exact not_blockInRange hp (by decide) (by simp only [memSize]; omega)
  case stores =>
    obtain ⟨t, hwrite, hframe, hin, hout⟩ :=
      s.memWriteBytes_spec (bs := bcdDigits (s.reg x)) (show 3 ≤ memSize by decide) hrange
    refine ⟨t, exec_ldB_of_write hwrite, hframe, fun a ha => ?_, fun a ha => ?_, fun a ha => ?_, hout⟩
    · rw [hin 0 (show 0 < 3 by decide) a ha]; exact digit_toNat (Nat.div_le_self _ _)
    · rw [hin 1 (show 1 < 3 by decide) a ha]; exact digit_toNat (Nat.le_trans (Nat.mod_le _ _) (Nat.div_le_self _ _))
    · rw [hin 2 (show 2 < 3 by decide) a ha]; exact digit_toNat (Nat.mod_le _ _)

/-! ## FX55 and FX65 -/

section block
variable {x : RegIdx} {s t : State}

theorem exec_storeRegs_of_write (h : s.memWriteBytes s.dataBase (s.firstRegs (blockLast s.cfg x)) = some t) :
    exec (.storeRegs x) s = .next t := by simp only [exec, execStoreRegs, h]

theorem exec_storeRegs_outOfRange (h : ¬ blockInRange s.cfg s.dataBase ((blockLast s.cfg x).toNat + 1)) :
    exec (.storeRegs x) s = haltInstr .memRange (.storeRegs x) s := by
  rw [← s.firstRegs_length] at h
  simp only [exec, execStoreRegs, s.memWriteBytes_outOfRange _ s.dataBase h]

theorem exec_loadRegs_inRange (h : blockInRange s.cfg s.dataBase ((blockLast s.cfg x).toNat + 1)) :
    exec (.loadRegs x) s = .next (s.withV (writeRegs s.V 0 (blockBytes s ((blockLast s.cfg x).toNat + 1)))) := by
  simp only [exec, execLoadRegs, s.memReadBytes_inRange _ s.dataBase h, blockBytes]

theorem exec_loadRegs_outOfRange (h : ¬ blockInRange s.cfg s.dataBase ((blockLast s.cfg x).toNat + 1)) :
    exec (.loadRegs x) s = haltInstr .memRange (.loadRegs x) s := by
  simp only [exec, execLoadRegs, s.memReadBytes_outOfRange _ s.dataBase h]

end block

/-- The k-th byte FX55 stores is V[k]. -/
theorem State.firstRegs_getElem (s : State) (last r : RegIdx) (h : r.toNat < (s.firstRegs last).length) :
    (s.firstRegs last)[r.toNat] = s.reg r := by simp [State.firstRegs, State.reg]

/-- FX55 in range: a block write of the first registers. -/
theorem exec_storeRegs_spec (x : RegIdx) (s : State)
    (h : blockInRange s.cfg s.dataBase ((blockLast s.cfg x).toNat + 1)) :
    ∃ t, exec (.storeRegs x) s = .next t ∧ frame [.mem] s t
      ∧ (∀ (r : RegIdx) a, r.toNat ≤ (blockLast s.cfg x).toNat → resolve s.cfg (s.dataBase + r.toNat) = some a →
          t.readByte a = s.reg r)
      ∧ ∀ b, (∀ k, k ≤ (blockLast s.cfg x).toNat → resolve s.cfg (s.dataBase + k) ≠ some b) →
          t.readByte b = s.readByte b := by
  have hlen := s.firstRegs_length (blockLast s.cfg x)
  have hsize : (s.firstRegs (blockLast s.cfg x)).length ≤ memSize := by
    rw [hlen, memSize]; have := (blockLast s.cfg x).isLt; omega
  rw [← hlen] at h
  obtain ⟨t, hwrite, hframe, hin, hout⟩ := s.memWriteBytes_spec hsize h
  refine ⟨t, exec_storeRegs_of_write hwrite, hframe, fun r a hr ha => ?_, fun b hb => ?_⟩
  · rw [hin r.toNat (by omega) a ha, State.firstRegs_getElem]
  · exact hout b fun k hk => hb k (by omega)

theorem frame_withV (s : State) (v : Vector Byte 16) : frame [.V] s (s.withV v) := by
  intro p hp
  cases p <;> simp_all [unchanged, State.readByte]

/-- FX65 in range: the first registers are the block's bytes. -/
theorem exec_loadRegs_spec (x : RegIdx) (s : State)
    (h : blockInRange s.cfg s.dataBase ((blockLast s.cfg x).toNat + 1)) :
    ∃ t, exec (.loadRegs x) s = .next t ∧ frame [.V] s t
      ∧ ∀ r : RegIdx, t.reg r
          = if r.toNat ≤ (blockLast s.cfg x).toNat then byteAt s (s.dataBase + r.toNat) else s.reg r := by
  refine ⟨_, exec_loadRegs_inRange h, frame_withV s _, fun r => ?_⟩
  rw [State.reg, State.withV_V, writeRegs_get _ _ _ _ r.isLt, blockBytes_length]
  by_cases hr : r.toNat ≤ (blockLast s.cfg x).toNat
  · rw [if_pos (by omega), if_pos hr, Nat.sub_zero, blockBytes_getD s (by omega)]
  · rw [if_neg (by omega), if_neg hr, State.reg]

/-- Settles O49, by `exec_storeRegs_spec`. -/
theorem blockStoreWritesRegisters : Obligations.BlockStoreWritesRegisters := by
  unfold Obligations.BlockStoreWritesRegisters
  rintro x s last hlast hrange
  rw [← blockLast_eq] at hlast
  subst hlast
  exact exec_storeRegs_spec x s hrange

/-- Settles O50, by `exec_loadRegs_spec`. -/
theorem blockLoadReadsRegisters : Obligations.BlockLoadReadsRegisters := by
  unfold Obligations.BlockLoadReadsRegisters
  rintro x s last hlast hrange
  rw [← blockLast_eq] at hlast
  subst hlast
  exact exec_loadRegs_spec x s hrange

/-- Settles O52: the store leaves the parameters, I and the registers alone, so the load reads the block just stored. -/
theorem blockStoreThenLoadRestores : Obligations.BlockStoreThenLoadRestores := by
  unfold Obligations.BlockStoreThenLoadRestores
  intro x s hrange
  obtain ⟨t, ht, htframe, hstored, -⟩ := exec_storeRegs_spec x s hrange
  obtain ⟨hcfg, -⟩ : t.cfg = s.cfg ∧ _ := htframe .fixed (by decide)
  have hI : t.I = s.I := htframe .I (by decide)
  have hV : ∀ r, t.reg r = s.reg r := htframe .V (by decide)
  have hbase : t.dataBase = s.dataBase := by rw [State.dataBase, hI, State.dataBase]
  obtain ⟨u, hu, huframe, hloaded⟩ := exec_loadRegs_spec x t (by rw [hcfg, hbase]; exact hrange)
  refine ⟨t, u, ht, hu, fun r => ?_, (huframe .I (by decide)).trans hI⟩
  rw [hloaded r, hcfg, hbase]
  split
  · rename_i hr
    have ha := resolve_of_block hrange (Nat.lt_succ_of_le hr)
    rw [byteAt_of_resolve (hcfg.symm ▸ ha), hstored r _ hr ha]
  · exact hV r

end Sys2Proof.Machine
end

section
/-! SUPPORT. Drawing (spec 45_display R214, R216): DXYN through the pixels, and the frame buffer as its pixels. -/

namespace Sys2Proof.Machine

section draw
variable {x y : RegIdx} {n : Nibble} {s : State}

/-- What DXYN draws: the frame buffer and whether a pixel went from on to off. -/
def drawn (s : State) (x y : RegIdx) (n : Nibble) : FrameBuffer × Bool :=
  drawRows ((s.reg x).toNat % 64) (blockBytes s n.toNat) ((s.reg y).toNat % 32) s.fb false

theorem exec_drw_inRange (h : blockInRange s.cfg s.dataBase n.toNat) : exec (.drw x y n) s
    = .next (((s.withFb (drawn s x y n).1).setFlag (drawn s x y n).2).emit (.present (drawn s x y n).1)) := by
  simp only [exec, execDrw, s.memReadBytes_inRange _ s.dataBase h]
  rfl

theorem exec_drw_outOfRange (h : ¬ blockInRange s.cfg s.dataBase n.toNat) :
    exec (.drw x y n) s = haltInstr .memRange (.drw x y n) s := by
  simp only [exec, execDrw, s.memReadBytes_outOfRange _ s.dataBase h]

end draw

/-- The bit of the block's sprite on a pixel of the grid is the one the statements speak of. -/
theorem spriteRowsBit_blockBytes (s : State) (x y : RegIdx) (n : Nibble) {r c : Nat} (hc : c < 64) :
    spriteRowsBit ((s.reg x).toNat % 64) (blockBytes s n.toNat) ((s.reg y).toNat % 32) r c = drwBit s x y n r c := by
  rw [spriteRowsBit, drwBit, spriteBit, blockBytes_length, spriteRow_bit _ _ _ hc]
  by_cases hrows : (s.reg y).toNat % 32 ≤ r ∧ r < (s.reg y).toNat % 32 + n.toNat
  · obtain ⟨hfirst, hlast⟩ := hrows
    rw [blockBytes_getD s (by omega)]
    simp only [hfirst, hlast, decide_true, Bool.true_and]
  · have hclipped : (decide ((s.reg y).toNat % 32 ≤ r) && decide (r < (s.reg y).toNat % 32 + n.toNat)) = false := by
      simpa using hrows
    simp only [hclipped, Bool.false_and]

/-- Every pixel of the grid after DXYN. -/
theorem pixel_drawn (s : State) (x y : RegIdx) (n : Nibble) {r c : Nat} (hr : r < 32) (hc : c < 64) :
    pixel (drawn s x y n).1 r c = (pixel s.fb r c ^^ drwBit s x y n r c) := by
  rw [drawn, (drawRows_spec _ _ _ _ _).1 r c hr hc, spriteRowsBit_blockBytes s x y n hc]

/-- A pixel that DXYN turns from on to off. -/
def Collides (s : State) (x y : RegIdx) (n : Nibble) : Prop :=
  ∃ r c, r < 32 ∧ c < 64 ∧ pixel s.fb r c = true ∧ drwBit s x y n r c = true

theorem drawn_flag_iff (s : State) (x y : RegIdx) (n : Nibble) : (drawn s x y n).2 = true ↔ Collides s x y n := by
  rw [drawn, (drawRows_spec _ _ _ _ _).2]
  constructor
  · rintro (h | ⟨r, c, hr, hc, hon, hbit⟩)
    · cases h
    · exact ⟨r, c, hr, hc, hon, by rwa [spriteRowsBit_blockBytes s x y n hc] at hbit⟩
  · rintro ⟨r, c, hr, hc, hon, hbit⟩
    exact .inr ⟨r, c, hr, hc, hon, by rwa [spriteRowsBit_blockBytes s x y n hc]⟩

theorem frame_withFb_setFlag_emit (s : State) (f : FrameBuffer) (b : Bool) (o : Output) :
    frame [.V, .fb, .outputs] s (((s.withFb f).setFlag b).emit o) := by
  have hfb : frame [.V, .fb, .outputs] s (s.withFb f) := frame_mono (frame_withFb s f) (by simp)
  have hflag : frame [.V, .fb, .outputs] (s.withFb f) ((s.withFb f).setFlag b) :=
    frame_mono (frame_setReg _ _ _) (by simp)
  exact frame_trans (frame_trans hfb hflag) (frame_mono (frame_emit _ o) (by simp))

/-- DXYN in range, in the words of the statements. -/
theorem exec_drw_spec (x y : RegIdx) (n : Nibble) (s : State) (h : blockInRange s.cfg s.dataBase n.toNat) :
    ∃ t, exec (.drw x y n) s = .next t
      ∧ (∀ r c, r < 32 → c < 64 → pixel t.fb r c = (pixel s.fb r c ^^ drwBit s x y n r c))
      ∧ (Collides s x y n → t.reg 0xF = 1) ∧ (¬ Collides s x y n → t.reg 0xF = 0)
      ∧ t.outputs = .present t.fb :: s.outputs ∧ sameRegsExcept [0xF] s t ∧ frame [.V, .fb, .outputs] s t := by
  have hflag := reg_flag_setFlag (s.withFb (drawn s x y n).1) (drawn s x y n).2
  refine ⟨_, exec_drw_inRange h, fun r c => pixel_drawn s x y n, fun hcol => ?_, fun hcol => ?_, rfl, fun r hr => ?_,
    frame_withFb_setFlag_emit s _ _ _⟩
  · exact hflag.trans (by rw [(drawn_flag_iff s x y n).2 hcol]; rfl)
  · exact hflag.trans (by rw [Bool.eq_false_iff.2 (mt (drawn_flag_iff s x y n).1 hcol)]; rfl)
  · exact sameRegsExcept_setReg (s.withFb (drawn s x y n).1) 0xF _ r hr

/-- Settles O54, by `exec_drw_spec`. -/
theorem drawXorsClippedSprite : Obligations.DrawXorsClippedSprite := by
  unfold Obligations.DrawXorsClippedSprite
  intro x y n s hrange
  exact exec_drw_spec x y n s hrange

/-- Two frame buffers with the same pixels in the grid are the same. -/
theorem frameBuffer_ext {f g : FrameBuffer} (h : ∀ r c, r < 32 → c < 64 → pixel f r c = pixel g r c) : f = g := by
  apply Vector.ext
  intro r hr
  apply BitVec.eq_of_getMsbD_eq
  intro c hc
  simpa [pixel, hr, displayW, hc] using h r c hr hc

/-- The sprite bits of DXYN depend on the two coordinates, I, memory and the parameters alone. -/
theorem drwBit_congr {x y : RegIdx} {s t : State} (hx : t.reg x = s.reg x) (hy : t.reg y = s.reg y) (hI : t.I = s.I)
    (hmem : ∀ a, t.readByte a = s.readByte a) (hcfg : t.cfg = s.cfg) (n : Nibble) (r c : Nat) :
    drwBit t x y n r c = drwBit s x y n r c := by
  have hbyte (addr : Nat) : byteAt t addr = byteAt s addr := by
    simp only [byteAt, State.memRead, hcfg, hmem]
  simp only [drwBit, spriteBit, hx, hy, hbyte, State.dataBase, hI]

/-- Settles O55: the second draw puts the same bits on the pixels, so their XOR cancels; on a clear buffer nothing
collides at first, and then every visible bit does. -/
theorem drawTwiceRestores : Obligations.DrawTwiceRestores := by
  unfold Obligations.DrawTwiceRestores
  intro x y n s hx hy hrange
  obtain ⟨t, ht, hpixel, -, hnocol, -, hregs, hframe⟩ := exec_drw_spec x y n s hrange
  obtain ⟨hcfg, -⟩ : t.cfg = s.cfg ∧ _ := hframe .fixed (by decide)
  have hI : t.I = s.I := hframe .I (by decide)
  have hbit : ∀ r c, drwBit t x y n r c = drwBit s x y n r c :=
    drwBit_congr (hregs x (by simpa using hx)) (hregs y (by simpa using hy)) hI (hframe .mem (by decide)) hcfg n
  obtain ⟨u, hu, hpixel', hcol', -⟩ :=
    exec_drw_spec x y n t (by rw [hcfg, State.dataBase, hI]; exact hrange)
  refine ⟨t, u, ht, hu, frameBuffer_ext fun r c hr hc => ?_, fun hclear => ⟨hnocol ?_, ?_⟩⟩
  · rw [hpixel' r c hr hc, hpixel r c hr hc, hbit, Bool.xor_assoc, Bool.xor_self, Bool.xor_false]
  · rintro ⟨r, c, -, -, hon, -⟩
    rw [hclear r c] at hon
    cases hon
  · rintro ⟨r, c, hr, hc, hb⟩
    refine hcol' ⟨r, c, hr, hc, ?_, by rw [hbit, hb]⟩
    rw [hpixel r c hr hc, hclear r c, hb]; rfl

end Sys2Proof.Machine
end

section
/-! SUPPORT. What the execute phase of any instruction can do, said once (spec 40_step_cycle R125, R130): the instruction
goes on and changes only the pieces of `mayWrite`, or it meets its halt condition and halts with its own cause. -/

namespace Sys2Proof.Machine

theorem skipIf_mem (s : State) (b : Bool) : (s.skipIf b).mem = s.mem := by cases b <;> rfl

theorem setPolicyFlag_mem (s : State) (b : Bool) : (s.setPolicyFlag b).mem = s.mem := by
  unfold State.setPolicyFlag; split <;> rfl

/-- A block write in range changes memory alone and keeps its canonical form. -/
theorem memWriteBytes_of_block (s : State) {bs : List Byte} (h : blockInRange s.cfg s.dataBase bs.length) :
    ∃ t, s.memWriteBytes s.dataBase bs = some t ∧ frame [.mem] s t ∧ (MemoryInv s → MemoryInv t) := by
  obtain ⟨m, hwrite, -, -, hwf⟩ := s.memWriteBytes_inRange bs s.dataBase h
  exact ⟨_, hwrite, frame_withMem s m, hwf⟩

/-- What an instruction that goes on leaves alone: the pieces its rule does not name, memory as data unless the rule names
it, and memory's canonical form in any case. -/
structure KeptBy (i : Instr) (s t : State) : Prop where
  pieces : frame (mayWrite i) s t
  mem : .mem ∉ mayWrite i → t.mem = s.mem
  memoryInv : MemoryInv s → MemoryInv t

theorem KeptBy.of_mem_eq {i : Instr} {s t : State} (hframe : frame (mayWrite i) s t) (hcfg : t.cfg = s.cfg)
    (hmem : t.mem = s.mem) : KeptBy i s t :=
  ⟨hframe, fun _ => hmem, fun h => by rw [MemoryInv, hcfg, hmem]; exact h⟩

theorem KeptBy.of_blockWrite {i : Instr} {s : State} {bs : List Byte} (hi : mayWrite i = [.mem])
    (h : blockInRange s.cfg s.dataBase bs.length) :
    ∃ t, s.memWriteBytes s.dataBase bs = some t ∧ KeptBy i s t := by
  obtain ⟨t, hwrite, hframe, hwf⟩ := memWriteBytes_of_block s h
  exact ⟨t, hwrite, hi ▸ hframe, fun hn => absurd (by simp [hi]) hn, hwf⟩

/-- An instruction that does not meet its halt condition goes on: each constructor by its own equation and frame. -/
theorem exec_goesOn {i : Instr} {s : State} (hg : goesOn s i) : ∃ t, exec i s = .next t ∧ KeptBy i s t := by
  cases i
  case cls => exact ⟨_, exec_cls s, .of_mem_eq (frame_withFb_emit s _ _) rfl rfl⟩
  case ret => exact ⟨_, exec_ret_of_used hg, .of_mem_eq (frame_withStack_withPc s _ _ _) rfl rfl⟩
  case call => exact ⟨_, exec_call_of_room hg, .of_mem_eq (frame_withStack_withPc s _ _ _) rfl rfl⟩
  case jp => exact ⟨_, exec_jp _ s, .of_mem_eq (frame_withPc s _) rfl rfl⟩
  case jpV0 => exact ⟨_, exec_jpV0 _ s, .of_mem_eq (frame_withPc s _) rfl rfl⟩
  case seByte | sneByte | seReg | sneReg =>
    obtain ⟨hfixed, -⟩ := frame_skipIf s _ .fixed (by decide)
    exact ⟨_, rfl, .of_mem_eq (frame_skipIf s _) hfixed (skipIf_mem s _)⟩
  case ldByte | addByte | ldReg | orReg | andReg | xorReg | ldVxDT =>
    exact ⟨_, rfl, .of_mem_eq (frame_setReg s _ _) rfl rfl⟩
  case addReg | shr | shl =>
    obtain ⟨hfixed, -⟩ := frame_setReg_setPolicyFlag s _ _ _ .fixed (by decide)
    exact ⟨_, rfl, .of_mem_eq (frame_setReg_setPolicyFlag s _ _ _) hfixed (setPolicyFlag_mem _ _)⟩
  case subReg | subnReg => exact ⟨_, rfl, .of_mem_eq (frame_setReg_setFlag s _ _ _) rfl rfl⟩
  case rnd => exact ⟨_, exec_rnd _ _ s, .of_mem_eq (frame_afterRand_setReg s _ _) rfl rfl⟩
  case ldI | addI | ldF => exact ⟨_, rfl, .of_mem_eq (frame_withI s _) rfl rfl⟩
  case drw => exact ⟨_, exec_drw_inRange hg, .of_mem_eq (frame_withFb_setFlag_emit s _ _ _) rfl rfl⟩
  case skp | sknp =>
    obtain ⟨hfixed, -⟩ := frame_afterKeyDown_skipIf s _ .fixed (by decide)
    exact ⟨_, rfl, .of_mem_eq (frame_afterKeyDown_skipIf s _) hfixed (skipIf_mem s.afterKeyDown _)⟩
  case ldVxK x =>
    cases hk : s.keyWaitAnswer with
    | none =>
      exact ⟨_, exec_ldVxK_blocked x hk, .of_mem_eq (frame_mono (frame_afterKeyWait_retreat s) (by simp [mayWrite]))
        rfl rfl⟩
    | some k =>
      exact ⟨_, exec_ldVxK_key x hk, .of_mem_eq (frame_mono (frame_afterKeyWait_setReg s x _) (by simp [mayWrite]))
        rfl rfl⟩
  case ldDTVx => exact ⟨_, exec_ldDTVx _ s, .of_mem_eq (frame_timerSetDT s _) rfl rfl⟩
  case ldSTVx => exact ⟨_, exec_ldSTVx _ s, .of_mem_eq (frame_timerSetST s _) rfl rfl⟩
  case ldB x =>
    obtain ⟨t, hwrite, hkept⟩ := KeptBy.of_blockWrite (i := .ldB x) (bs := bcdDigits (s.reg x)) rfl hg
    exact ⟨t, exec_ldB_of_write hwrite, hkept⟩
  case storeRegs x =>
    obtain ⟨t, hwrite, hkept⟩ := KeptBy.of_blockWrite (i := .storeRegs x) (bs := s.firstRegs (blockLast s.cfg x)) rfl
      (by rw [State.firstRegs_length]; exact hg)
    exact ⟨t, exec_storeRegs_of_write hwrite, hkept⟩
  case loadRegs => exact ⟨_, exec_loadRegs_inRange hg, .of_mem_eq (frame_withV s _) rfl rfl⟩

/-- An instruction that meets its halt condition halts with its own cause; only six have one. -/
theorem exec_halts {i : Instr} {s : State} (hg : ¬ goesOn s i) :
    ownCause i ≠ .none ∧ exec i s = haltInstr (ownCause i) i s := by
  cases i
  case call => exact ⟨nofun, exec_call_of_full hg⟩
  case ret => exact ⟨nofun, exec_ret_of_empty (Classical.not_not.1 hg)⟩
  case drw => exact ⟨nofun, exec_drw_outOfRange hg⟩
  case ldB => exact ⟨nofun, exec_ldB_outOfRange hg⟩
  case storeRegs => exact ⟨nofun, exec_storeRegs_outOfRange hg⟩
  case loadRegs => exact ⟨nofun, exec_loadRegs_outOfRange hg⟩
  all_goals exact absurd trivial hg

/-- Whether an instruction goes on is a condition on the state that the fetch and the quit check do not touch. -/
theorem goesOn_afterQuit_advance (s : State) (i : Instr) : goesOn s.afterQuit.advance i ↔ goesOn s i := by
  cases i <;> exact Iff.rfl

/-- Settles O32: an instruction that goes on keeps the frame of `mayWrite`, one that does not is a halt. -/
theorem instructionChangesOnlyPiecesItsRuleNames : Obligations.InstructionChangesOnlyPiecesItsRuleNames := by
  unfold Obligations.InstructionChangesOnlyPiecesItsRuleNames
  intro i s t h
  by_cases hg : goesOn s i
  · obtain ⟨u, hu, hframe, -⟩ := exec_goesOn hg
    cases h.symm.trans hu
    exact .inl hframe
  · obtain ⟨-, hhalt⟩ := exec_halts hg
    obtain ⟨u, hu, hrecord, hframe⟩ := exec_halt_spec hhalt
    cases h.symm.trans hu
    exact .inr ⟨hframe, hrecord⟩

/-- Settles O51: each of the four instructions has its halt condition met by a block that is not in range. -/
theorem outOfRangeDataAccessHalts : Obligations.OutOfRangeDataAccessHalts := by
  unfold Obligations.OutOfRangeDataAccessHalts
  intro i n s hp hi hout
  have hblock (hn : n ≠ 0) : ¬ blockInRange s.cfg s.dataBase n :=
    not_blockInRange hp hn (by simp only [memSize]; omega)
  have hlast (x : RegIdx) : (if s.cfg.regBlock = .all16 then 15 else x.toNat) = (blockLast s.cfg x).toNat := by
    rw [blockLast_eq]; split <;> rfl
  rcases hi with ⟨x, rfl, rfl⟩ | ⟨x, rfl, rfl⟩ | ⟨x, rfl, rfl⟩ | ⟨x, y, rows, rfl, rfl, hn⟩
  · exact exec_halt_spec (exec_ldB_outOfRange (hblock (by omega)))
  · exact exec_halt_spec (exec_storeRegs_outOfRange (hlast x ▸ hblock (by omega)))
  · exact exec_halt_spec (exec_loadRegs_outOfRange (hlast x ▸ hblock (by omega)))
  · exact exec_halt_spec (exec_drw_outOfRange (hblock (by omega)))

/-! ## pc after an instruction -/

theorem zextAddr_eq_ofNat (nnn : Addr12) : zextAddr nnn = BitVec.ofNat 16 nnn.toNat := by
  apply BitVec.eq_of_toNat_eq
  rw [zextAddr_toNat, BitVec.toNat_ofNat, Nat.mod_eq_of_lt]
  have hn := nnn.isLt
  omega

theorem zextByte_add_zextAddr_eq_ofNat (b : Byte) (nnn : Addr12) :
    zextByte b + zextAddr nnn = BitVec.ofNat 16 (b.toNat + nnn.toNat) := by
  apply BitVec.eq_of_toNat_eq
  rw [zextByte_add_zextAddr_toNat, BitVec.toNat_ofNat, Nat.mod_eq_of_lt]
  have hb := b.isLt
  have hn := nnn.isLt
  omega

/-- A skip in the execute phase, in terms of pc at the start of the step. -/
theorem skipIf_advance_pc (s : State) {t : State} (ht : t.pc = s.pc + 2) {b : Bool} {c : Prop} [Decidable c]
    (hb : b = true ↔ c) : (t.skipIf b).pc = if c then s.pc + 4 else s.pc + 2 := by
  rw [State.skipIf_pc t hb, ht, BitVec.add_assoc]; rfl

/-- An instruction that goes on leaves the pc of `nextPc`: the rules that name pc by their equations, all others by their
frame. -/
theorem exec_pc {s u : State} {i : Instr} (hg : goesOn s i) (h : exec i s.afterQuit.advance = .next u) :
    u.pc = nextPc s i := by
  obtain ⟨u', hu', hframe, -⟩ := exec_goesOn ((goesOn_afterQuit_advance s i).2 hg)
  obtain rfl : u' = u := Host.Outcome.next.inj (hu'.symm.trans h)
  have hkept (hpc : .pc ∉ mayWrite i) : u'.pc = s.pc + 2 := hframe .pc hpc
  cases i
  case ret =>
    obtain rfl := Host.Outcome.next.inj (h.symm.trans (exec_ret_of_used (s := s.afterQuit.advance) hg))
    rfl
  case call =>
    obtain rfl := Host.Outcome.next.inj (h.symm.trans (exec_call_of_room (s := s.afterQuit.advance) hg))
    exact zextAddr_eq_ofNat _
  case jp => obtain rfl := Host.Outcome.next.inj h; exact zextAddr_eq_ofNat _
  case jpV0 => obtain rfl := Host.Outcome.next.inj h; exact zextByte_add_zextAddr_eq_ofNat (s.reg 0) _
  case seByte | seReg => obtain rfl := Host.Outcome.next.inj h; exact skipIf_advance_pc s rfl beq_iff_eq
  case sneByte | sneReg => obtain rfl := Host.Outcome.next.inj h; exact skipIf_advance_pc s rfl bne_iff_ne
  case skp => obtain rfl := Host.Outcome.next.inj h; exact skipIf_advance_pc s rfl Iff.rfl
  case sknp =>
    obtain rfl := Host.Outcome.next.inj h; exact skipIf_advance_pc s rfl (iff_of_eq (Bool.not_eq_true' _))
  case ldVxK x =>
    cases hk : s.keyWaitAnswer with
    | none =>
      obtain rfl := Host.Outcome.next.inj (h.symm.trans (exec_ldVxK_blocked (s := s.afterQuit.advance) x hk))
      simp only [nextPc, hk, if_true]
      exact advance_afterKeyWait_retreat_pc s.afterQuit
    | some k =>
      obtain rfl := Host.Outcome.next.inj (h.symm.trans (exec_ldVxK_key (s := s.afterQuit.advance) x hk))
      simp only [nextPc, hk, reduceCtorEq, if_false]
      rfl
  all_goals exact hkept (by simp [mayWrite])

/-! ## The ports an instruction reads -/

/-- An instruction leaves the quit line alone, reads the clock once if it sets a timer and else not, and the clock does
not go back. -/
theorem exec_env {s t : State} {i : Instr} (hg : goesOn s i) (h : exec i s = .next t) :
    t.env.quit = s.env.quit ∧ s.env.clock ≤ t.env.clock
      ∧ t.env.elapsed.reads + 2 = s.env.elapsed.reads + clockReads i := by
  obtain ⟨t', ht', hframe, -⟩ := exec_goesOn hg
  obtain rfl : t' = t := Host.Outcome.next.inj (ht'.symm.trans h)
  cases i
  case rnd => obtain rfl := Host.Outcome.next.inj h; exact ⟨rfl, Nat.le_refl _, rfl⟩
  case skp | sknp => obtain rfl := Host.Outcome.next.inj h; rw [skipIf_env]; exact ⟨rfl, Nat.le_refl _, rfl⟩
  case ldDTVx | ldSTVx => obtain rfl := Host.Outcome.next.inj h; exact ⟨rfl, s.clock_le_now, rfl⟩
  case ldVxK x =>
    cases hk : s.keyWaitAnswer with
    | none =>
      obtain rfl := Host.Outcome.next.inj (h.symm.trans (exec_ldVxK_blocked x hk)); exact ⟨rfl, Nat.le_refl _, rfl⟩
    | some k =>
      obtain rfl := Host.Outcome.next.inj (h.symm.trans (exec_ldVxK_key x hk)); exact ⟨rfl, Nat.le_refl _, rfl⟩
  all_goals
    have henv : t'.env = s.env := hframe .env (by simp [mayWrite])
    rw [henv]
    exact ⟨rfl, Nat.le_refl _, rfl⟩

end Sys2Proof.Machine
end

section
/-! SUPPORT. What a step can do, said once (spec 40_step_cycle R120 to R126, 60_exceptions R265 to R267): it halts with
the first cause that holds and commits nothing, or it executes the instruction at pc and decays both timers. -/

namespace Sys2Proof.Machine

/-! ## The instruction at pc -/

theorem nextInstr_of_fetchWord {s : State} {w : Word} (h : s.fetchWord = some w) : s.nextInstr = decodeWord w := by
  rw [State.nextInstr, h, Option.bind_some]

/-- The instruction at pc depends on pc, the bytes and the parameters alone. -/
theorem nextInstr_congr {s t : State} (hpc : t.pc = s.pc) (hmem : ∀ a, t.readByte a = s.readByte a)
    (hcfg : t.cfg = s.cfg) : t.nextInstr = s.nextInstr := by
  have hread (addr : Nat) : t.memRead addr = s.memRead addr := by simp only [State.memRead, hcfg, hmem]
  simp only [State.nextInstr, State.fetchWord, hread, hpc]

/-! ## A halt -/

/-- The word a halt records: the word fetched, and 0x0000 where the quit line or pc stopped the step before the fetch, or
the fetch itself halted (spec 60_exceptions R265). -/
def recordedWord (s : State) : Word :=
  if s.quitAnswer = false ∧ s.pcInRange = true then s.fetchWord.getD 0 else 0

/-- A step that halts: it reads the quit line, and then all it does is the halt entry. -/
structure HaltStep (s t : State) : Prop where
  state : t = s.afterQuit.takeHalt (causeByPriority s) (recordedWord s) s.pc
  cause : causeByPriority s ≠ .none

/-- A step that goes on: the state `u` after the execute phase of `i`, then the decays. -/
structure RunStep (s t : State) (i : Instr) (u : State) : Prop where
  quit : s.quitAnswer = false
  inRange : s.pcInRange = true
  instr : s.nextInstr = some i
  goes : goesOn s i
  executed : exec i s.afterQuit.advance = .next u
  kept : KeptBy i s.afterQuit.advance u
  running : u.run = .running
  state : t = u.timerDecayDT.timerDecayST

/-! ## The step by its phases -/

/-! No rule names the halt record, the parameters or the image size as written. -/

theorem halt_not_mem_mayWrite (i : Instr) : .halt ∉ mayWrite i := by cases i <;> simp [mayWrite]

theorem fixed_not_mem_mayWrite (i : Instr) : .fixed ∉ mayWrite i := by cases i <;> simp [mayWrite]

section phases
variable {s : State} {i : Instr}

theorem step_of_nextInstr (hrun : s.run = .running) (hq : s.quitAnswer = false) (hpc : s.pcInRange = true)
    (hi : s.nextInstr = some i) : step s = afterExecute (exec i s.afterQuit.advance) := by
  obtain ⟨w, hw, hd⟩ := Option.bind_eq_some_iff.1 hi
  simp only [step, hrun, fetchPhase, hq, Bool.false_eq_true, if_false, hpc, if_true, hw, hd]

theorem step_of_illegal {w : Word} (hrun : s.run = .running) (hq : s.quitAnswer = false) (hpc : s.pcInRange = true)
    (hw : s.fetchWord = some w) (hd : decodeWord w = none) :
    step s = .next (s.afterQuit.takeHalt .decode w s.pc) := by
  simp only [step, hrun, fetchPhase, hq, Bool.false_eq_true, if_false, hpc, if_true, hw, hd]
  rfl

/-- An instruction that goes on: the state after it, and the end of the step. -/
theorem step_of_goesOn (hrun : s.run = .running) (hq : s.quitAnswer = false) (hpc : s.pcInRange = true)
    (hi : s.nextInstr = some i) (hg : goesOn s i) : ∃ t u, step s = .next t ∧ RunStep s t i u := by
  obtain ⟨u, hu, hkept⟩ := exec_goesOn ((goesOn_afterQuit_advance s i).2 hg)
  obtain ⟨hurun, -⟩ := hkept.pieces .halt (halt_not_mem_mayWrite i)
  have hurun' : u.run = .running := hurun.trans hrun
  refine ⟨_, u, ?_, hq, hpc, hi, hg, hu, hkept, hurun', rfl⟩
  rw [step_of_nextInstr hrun hq hpc hi, hu, afterExecute, finishStep_running hurun']

/-- An instruction that meets its halt condition: the halt puts pc back, so the advance of the fetch is not seen. -/
theorem step_of_not_goesOn (hrun : s.run = .running) (hq : s.quitAnswer = false) (hpc : s.pcInRange = true)
    (hi : s.nextInstr = some i) (hg : ¬ goesOn s i) :
    step s = .next (s.afterQuit.takeHalt (ownCause i) (encode i) s.pc) := by
  obtain ⟨-, hhalt⟩ := exec_halts (mt (goesOn_afterQuit_advance s i).1 hg)
  rw [step_of_nextInstr hrun hq hpc hi, hhalt, haltInstr_eq, afterExecute, finishStep_halted rfl, State.advance_pc_sub]
  rfl

end phases

/-- The two ways a step can end. -/
theorem step_cases {s t : State} (h : step s = .next t) : HaltStep s t ∨ ∃ i u, RunStep s t i u := by
  have hrun := step_running h
  obtain ⟨hq, hf⟩ | ⟨hq, hpc, hf⟩ | ⟨hq, hpc, hw, hf⟩ | ⟨w, hq, hpc, hw, -⟩ := fetchPhase_cases s
  case inl =>
    cases h.symm.trans (step_of_fetchPhase_halt hrun hf)
    exact .inl ⟨by simp [causeByPriority, recordedWord, hq], by simp [causeByPriority, hq]⟩
  case inr.inl =>
    cases h.symm.trans (step_of_fetchPhase_halt hrun hf)
    exact .inl ⟨by simp [causeByPriority, recordedWord, hq, hpc], by simp [causeByPriority, hq, hpc]⟩
  case inr.inr.inl =>
    cases h.symm.trans (step_of_fetchPhase_halt hrun hf)
    exact .inl ⟨by simp [causeByPriority, recordedWord, hq, hpc, hw], by simp [causeByPriority, hq, hpc, hw]⟩
  case inr.inr.inr =>
    cases hd : decodeWord w with
    | none =>
      cases h.symm.trans (step_of_illegal hrun hq hpc hw hd)
      exact .inl ⟨by simp [causeByPriority, recordedWord, hq, hpc, hw, hd], by simp [causeByPriority, hq, hpc, hw, hd]⟩
    | some i =>
      have hi : s.nextInstr = some i := (nextInstr_of_fetchWord hw).trans hd
      by_cases hg : goesOn s i
      · obtain ⟨t', u, ht', hu⟩ := step_of_goesOn hrun hq hpc hi hg
        cases h.symm.trans ht'
        exact .inr ⟨i, u, hu⟩
      · cases h.symm.trans (step_of_not_goesOn hrun hq hpc hi hg)
        obtain ⟨hcause, -⟩ := exec_halts hg
        obtain rfl : encode i = w := encode_of_decodeWord hd
        exact .inl ⟨by simp [causeByPriority, recordedWord, hq, hpc, hw, hd],
          by simpa [causeByPriority, hq, hpc, hw, hd] using hcause⟩

/-! ## What a halting step leaves -/

section haltStep
variable {s t : State}

theorem HaltStep.haltedAt (h : HaltStep s t) : haltedAt t (causeByPriority s) (recordedWord s) s.pc := by
  rw [h.state]; exact ⟨rfl, rfl, rfl, rfl, rfl⟩

theorem HaltStep.run (h : HaltStep s t) : t.run = .halted := by rw [h.state]; rfl

theorem HaltStep.env (h : HaltStep s t) : t.env = s.afterQuit.env := by rw [h.state]; rfl

theorem HaltStep.mem (h : HaltStep s t) : t.mem = s.mem := by rw [h.state]; rfl

/-- The halt entry writes pc to what it was, so the record and the quit line are all that changes. -/
theorem HaltStep.frame (h : HaltStep s t) : frame [.halt, .env] s t := by
  rw [h.state]
  intro p hp
  cases p <;> simp_all [unchanged, State.takeHalt, State.afterQuit, State.reg, State.readByte]

/-- A step that cannot go on halts. -/
theorem step_haltStep (hrun : s.run = .running)
    (hno : s.quitAnswer = false → s.pcInRange = true → ∀ i, s.nextInstr = some i → ¬ goesOn s i) :
    ∃ t, step s = .next t ∧ HaltStep s t := by
  obtain ⟨t, ht⟩ := step_next hrun
  rcases step_cases ht with h | ⟨i, u, h⟩
  · exact ⟨t, ht, h⟩
  · exact absurd h.goes (hno h.quit h.inRange i h.instr)

/-- A step that cannot go on halts with the cause and the word that its condition gives. -/
theorem step_halts_spec {c : HaltCause} {w : Word} (hrun : s.run = .running)
    (hno : s.quitAnswer = false → s.pcInRange = true → ∀ i, s.nextInstr = some i → ¬ goesOn s i)
    (hc : causeByPriority s = c) (hw : recordedWord s = w) :
    ∃ t, step s = .next t ∧ haltedAt t c w s.pc ∧ frame [.halt, .env] s t := by
  obtain ⟨t, ht, h⟩ := step_haltStep hrun hno
  exact ⟨t, ht, by rw [← hc, ← hw]; exact h.haltedAt, h.frame⟩

end haltStep

/-! ## What a step that goes on leaves -/

section runStep
variable {s t u : State} {i : Instr}

theorem frame_afterQuit_advance (s : State) : frame [.pc, .env] s s.afterQuit.advance := by
  have hread : frame [.pc, .env] s s.afterQuit := frame_mono (frame_withEnv s _) (by simp)
  exact frame_trans hread (frame_mono (frame_withPc _ _) (by simp))

/-- The pieces a step that goes on can change: those its instruction changes, pc, the timers and the environment. -/
theorem RunStep.frame_of_exec {l : List Piece} (h : RunStep s t i u) (hexec : frame l s.afterQuit.advance u) :
    frame (l ++ [.pc, .DT, .ST, .env]) s t := by
  have hfetch : frame (l ++ [.pc, .DT, .ST, .env]) s s.afterQuit.advance :=
    frame_mono (frame_afterQuit_advance s) (by simp)
  have hend : frame (l ++ [.pc, .DT, .ST, .env]) u t := by
    rw [h.state, ← finishStep_running h.running]
    exact frame_mono (frame_finishStep u) (by simp)
  exact frame_trans (frame_trans hfetch (frame_mono hexec (by simp +contextual))) hend

theorem RunStep.frame (h : RunStep s t i u) : frame (mayWrite i ++ [.pc, .DT, .ST, .env]) s t :=
  h.frame_of_exec h.kept.pieces

theorem RunStep.run (h : RunStep s t i u) : t.run = .running := by rw [h.state]; exact h.running

theorem RunStep.pc (h : RunStep s t i u) : t.pc = nextPc s i := by
  rw [← exec_pc h.goes h.executed, h.state]; rfl

theorem RunStep.stack (h : RunStep s t i u) : t.stack = u.stack ∧ t.sp = u.sp := by
  rw [h.state]; exact ⟨rfl, rfl⟩

theorem RunStep.mem (h : RunStep s t i u) (hi : .mem ∉ mayWrite i) : t.mem = s.mem := by
  rw [h.state]; exact h.kept.mem hi

/-- The quit line is read once, the clock once for each decay and for a set. -/
theorem RunStep.env (h : RunStep s t i u) : t.env.quit = s.env.quit.next ∧ s.env.clock ≤ t.env.clock
    ∧ t.env.elapsed.reads = s.env.elapsed.reads + clockReads i := by
  obtain ⟨hquit, hclock, hreads⟩ := exec_env ((goesOn_afterQuit_advance s i).2 h.goes) h.executed
  rw [h.state]
  refine ⟨hquit, ?_, hreads⟩
  exact Nat.le_trans hclock (Nat.le_trans u.clock_le_now u.afterNow.clock_le_now)

/-- Both timers are decayed, at times that are not after the clock. -/
theorem RunStep.timers (h : RunStep s t i u) : t.DT = u.DT.decay u.cfg.tickUs u.now
    ∧ t.ST = u.ST.decay u.cfg.tickUs u.afterNow.now ∧ u.now ≤ t.env.clock ∧ u.afterNow.now = t.env.clock := by
  rw [h.state]; exact ⟨rfl, rfl, u.afterNow.clock_le_now, rfl⟩

theorem RunStep.fixed (h : RunStep s t i u) : t.cfg = s.cfg ∧ t.imageSize = s.imageSize :=
  h.frame .fixed (by simp [fixed_not_mem_mayWrite])

theorem RunStep.record (h : RunStep s t i u) :
    t.haltCause = s.haltCause ∧ t.haltOpcode = s.haltOpcode ∧ t.haltAddr = s.haltAddr := by
  obtain ⟨-, hrecord⟩ := h.frame .halt (by simp [halt_not_mem_mayWrite])
  exact hrecord

end runStep

end Sys2Proof.Machine
end

section
/-! SUPPORT. The invariants that every step keeps, each by the two ways a step can end (`step_cases`). -/

namespace Sys2Proof.Machine

/-- Settles O19: a halt leaves memory as data; an instruction keeps the canonical form, and the decays leave memory. -/
theorem stepKeepsMemoryInv : Obligations.StepKeepsMemoryInv := by
  unfold Obligations.StepKeepsMemoryInv
  intro s t hinv h
  rcases step_cases h with hh | ⟨i, u, hr⟩
  · rw [hh.state]; exact hinv
  · rw [hr.state]; exact hr.kept.memoryInv hinv

/-- A decay leaves a timer in bounds, whatever it was before. -/
theorem timerOk_decay {tick t clock : Nat} (T : Timer) (h : t ≤ clock) : TimerOk tick clock (T.decay tick t) := by
  obtain ⟨-, href, hacc⟩ := Timer.decay_spec tick t T
  exact ⟨href.symm ▸ h, hacc⟩

/-- Settles O20: a halt changes neither the timers nor the clock; a step that goes on decays both timers, which brings
them into bounds. -/
theorem stepKeepsTimerInv : Obligations.StepKeepsTimerInv := by
  unfold Obligations.StepKeepsTimerInv
  intro s t hinv h
  rcases step_cases h with hh | ⟨i, u, hr⟩
  · rw [hh.state]; exact hinv
  · obtain ⟨hDT, hST, hnow, hclock⟩ := hr.timers
    have hcfg : t.cfg = u.cfg := by rw [hr.state]; rfl
    rw [TimerInv, hDT, hST, hcfg]
    exact ⟨timerOk_decay u.DT hnow, timerOk_decay u.ST (Nat.le_of_eq hclock)⟩

/-- Settles O21: a halt writes a cause, and a step that goes on leaves the record alone. -/
theorem stepKeepsHaltInv : Obligations.StepKeepsHaltInv := by
  unfold Obligations.StepKeepsHaltInv
  rintro s t ⟨hnone, -⟩ h
  rcases step_cases h with hh | ⟨i, u, hr⟩
  · obtain ⟨hrun, hcause, -⟩ := hh.haltedAt
    exact ⟨fun hr => (nomatch hrun.symm.trans hr), fun _ => hcause ▸ hh.cause⟩
  · obtain ⟨hcause, hop, haddr⟩ := hr.record
    rw [HaltInv, hcause, hop, haddr]
    exact ⟨fun _ => hnone (step_running h), fun hh => (nomatch hr.run.symm.trans hh)⟩

/-! ## Stack, pc and image -/

/-- Every entry in use was pc after a fetch (spec 10_state R31). -/
def EntriesOk (stack : List Word) (sp : Nat) : Prop :=
  ∀ k, k < sp → loadBase + 2 ≤ (stack.getD k 0).toNat ∧ (stack.getD k 0).toNat ≤ 4098

/-- A fetch inside the image leaves pc between 514 and 4098. -/
theorem advance_pc_bounds {s : State} (himage : s.imageSize ≤ maxImage) (hpc : s.pcInRange = true) :
    loadBase + 2 ≤ (s.pc + 2).toNat ∧ (s.pc + 2).toNat ≤ 4098 := by
  obtain ⟨hlow, hhigh⟩ := s.pcInRange_iff.1 hpc
  rw [maxImage, memSize, loadBase] at himage
  rw [loadBase, BitVec.toNat_add]
  simp only [BitVec.ofNat_eq_ofNat, BitVec.toNat_ofNat]
  omega

theorem stack_mem_mayWrite {i : Instr} (h : .stack ∈ mayWrite i) : i = .ret ∨ ∃ n, i = .call n := by
  cases i <;> simp_all [mayWrite]

/-- An instruction that goes on keeps the stack's bounds: a call adds pc after the fetch, a return and the others leave the
entries that stay in use alone. -/
theorem RunStep.stackInv {s t u : State} {i : Instr} (h : RunStep s t i u) (hinv : ControlInv s) :
    t.stack.length = t.cfg.stackCapacity ∧ t.sp ≤ t.cfg.stackCapacity ∧ EntriesOk t.stack t.sp := by
  obtain ⟨hlen, hsp, himage, -, hentries⟩ := hinv
  obtain ⟨hcfg, -⟩ := h.fixed
  obtain ⟨hstack, hdepth⟩ := h.stack
  rw [hcfg, hstack, hdepth]
  by_cases hi : .stack ∈ mayWrite i
  · rcases stack_mem_mayWrite hi with rfl | ⟨n, rfl⟩
    · obtain rfl := Host.Outcome.next.inj (h.executed.symm.trans (exec_ret_of_used (s := s.afterQuit.advance) h.goes))
      exact ⟨hlen, Nat.le_trans (Nat.sub_le _ _) hsp, fun k hk => hentries k (Nat.lt_of_lt_of_le hk (Nat.sub_le _ _))⟩
    · have hroom : s.sp < s.cfg.stackCapacity := h.goes
      obtain rfl := Host.Outcome.next.inj (h.executed.symm.trans (exec_call_of_room (s := s.afterQuit.advance) hroom))
      refine ⟨List.length_set.trans hlen, hroom, fun k hk => ?_⟩
      by_cases hks : k = s.sp
      · subst hks
        have htop : (s.stack.set s.sp (s.pc + 2)).getD s.sp 0 = s.pc + 2 := getD_set_self _ (by omega)
        exact htop.symm ▸ advance_pc_bounds himage h.inRange
      · have hold : (s.stack.set s.sp (s.pc + 2)).getD k 0 = s.stack.getD k 0 := getD_set_of_ne _ hks
        exact hold.symm ▸ hentries k (Nat.lt_of_le_of_ne (Nat.le_of_lt_succ hk) hks)
  · obtain ⟨hus, hud⟩ : u.stack = s.stack ∧ u.sp = s.sp := h.kept.pieces .stack hi
    rw [hus, hud]
    exact ⟨hlen, hsp, hentries⟩

/-- pc never exceeds 4350 = 255 + 4095, which BNNN can reach (spec 10_state R27). -/
theorem nextPc_le {s : State} {i : Instr} (hinv : ControlInv s) (hpc : s.pcInRange = true) (hg : goesOn s i) :
    (nextPc s i).toNat ≤ 4350 := by
  obtain ⟨-, -, himage, -, hentries⟩ := hinv
  obtain ⟨-, hhigh⟩ := s.pcInRange_iff.1 hpc
  rw [maxImage, memSize, loadBase] at himage
  have hpc0 : s.pc.toNat ≤ 4350 := by omega
  have hpc2 : (s.pc + 2).toNat ≤ 4350 := by
    rw [BitVec.toNat_add]; simp only [BitVec.ofNat_eq_ofNat, BitVec.toNat_ofNat]; omega
  have hpc4 : (s.pc + 4).toNat ≤ 4350 := by
    rw [BitVec.toNat_add]; simp only [BitVec.ofNat_eq_ofNat, BitVec.toNat_ofNat]; omega
  cases i
  case jp nnn | call nnn =>
    have hn := nnn.isLt
    rw [nextPc, BitVec.toNat_ofNat]; omega
  case jpV0 nnn =>
    have hn := nnn.isLt
    have hb := (s.reg 0).isLt
    rw [nextPc, BitVec.toNat_ofNat]; omega
  case ret =>
    have hused : s.sp ≠ 0 := hg
    obtain ⟨-, hentry⟩ := hentries (s.sp - 1) (by omega)
    rw [nextPc]; omega
  case seByte | sneByte | seReg | sneReg | skp | sknp | ldVxK => rw [nextPc]; split <;> assumption
  all_goals exact hpc2

/-- Settles O18: a halt changes none of these pieces; a step that goes on keeps the stack's bounds and leaves pc where
`nextPc` bounds it. -/
theorem stepKeepsControlInv : Obligations.StepKeepsControlInv := by
  unfold Obligations.StepKeepsControlInv
  intro s t hinv h
  rcases step_cases h with hh | ⟨i, u, hr⟩
  · rw [hh.state]; exact hinv
  · obtain ⟨hlen, hsp, hentries⟩ := hr.stackInv hinv
    obtain ⟨-, hsize⟩ := hr.fixed
    have hpc := nextPc_le hinv hr.inRange hr.goes
    obtain ⟨-, -, himage, -, -⟩ := hinv
    exact ⟨hlen, hsp, hsize ▸ himage, hr.pc ▸ hpc, hentries⟩

end Sys2Proof.Machine
end

section
/-! SUPPORT. How a step halts (spec 60_exceptions R260 to R269): the checks in their order, what is recorded, and that
nothing else is committed. -/

namespace Sys2Proof.Machine

/-- Settles O10: with a quit request no step goes on, and QUIT is the first cause. -/
theorem quitRequestHalts : Obligations.QuitRequestHalts := by
  unfold Obligations.QuitRequestHalts
  intro s hrun hq
  obtain ⟨t, ht, hh⟩ := step_haltStep hrun fun hq' => (nomatch hq.symm.trans hq')
  have hrecord := hh.haltedAt
  simp only [causeByPriority, recordedWord, hq, if_true, Bool.true_eq_false, false_and, if_false] at hrecord
  exact ⟨t, ht, hrecord, hh.frame, hh.env⟩

/-- A pc out of range halts the step before the fetch. -/
theorem step_pcRange {s : State} (hrun : s.run = .running) (hq : s.quitAnswer = false)
    (hpc : s.pc.toNat < 512 ∨ 512 + s.imageSize < s.pc.toNat) :
    ∃ t, step s = .next t ∧ haltedAt t .pcRange 0 s.pc ∧ frame [.halt, .env] s t := by
  have hout : s.pcInRange = false := by rw [Bool.eq_false_iff, Ne, State.pcInRange_iff]; omega
  exact step_halts_spec hrun (fun _ hpc' => (nomatch hout.symm.trans hpc')) (by simp [causeByPriority, hq, hout])
    (by simp [recordedWord, hout])

/-- The one cause of an instruction is none of those before the execute phase, but for MEM_RANGE. -/
theorem ownCause_cases (i : Instr) : ownCause i = .none ∨ ownCause i = .stackOverflow ∨ ownCause i = .stackUnderflow
    ∨ ownCause i = .memRange := by
  cases i <;> simp [ownCause]

/-- The causes in their order of priority, with the word each records. -/
theorem causeByPriority_cases (s : State) :
    (causeByPriority s = .quit ∧ recordedWord s = 0)
      ∨ (s.pcInRange = false ∧ causeByPriority s = .pcRange ∧ recordedWord s = 0)
      ∨ (causeByPriority s = .memRange ∧ s.fetchWord = none ∧ recordedWord s = 0)
      ∨ (s.fetchWord = some (recordedWord s) ∧ (causeByPriority s = .decode ∨ ∃ i, causeByPriority s = ownCause i)) := by
  obtain ⟨hq, -⟩ | ⟨hq, hpc, -⟩ | ⟨hq, hpc, hw, -⟩ | ⟨w, hq, hpc, hw, -⟩ := fetchPhase_cases s
  · exact .inl ⟨by simp only [causeByPriority, hq, if_true],
      by simp only [recordedWord, hq, Bool.true_eq_false, false_and, if_false]⟩
  · exact .inr (.inl ⟨hpc, by simp only [causeByPriority, hq, hpc, Bool.false_eq_true, if_false],
      by simp only [recordedWord, hpc, Bool.false_eq_true, and_false, if_false]⟩)
  · exact .inr (.inr (.inl ⟨by simp only [causeByPriority, hq, hpc, hw, Bool.false_eq_true, if_false, if_true], hw,
      by simp only [recordedWord, hq, hpc, hw, and_self, if_true, Option.getD_none]⟩))
  · refine .inr (.inr (.inr ⟨by simp only [recordedWord, hq, hpc, hw, and_self, if_true, Option.getD_some], ?_⟩))
    cases hd : decodeWord w with
    | none => exact .inl (by simp only [causeByPriority, hq, hpc, hw, hd, Bool.false_eq_true, if_false, if_true])
    | some i =>
      exact .inr ⟨i, by simp only [causeByPriority, hq, hpc, hw, hd, Bool.false_eq_true, if_false, if_true]⟩

theorem causeByPriority_ne_imageTooLarge (s : State) : causeByPriority s ≠ .imageTooLarge := by
  rcases causeByPriority_cases s with ⟨h, -⟩ | ⟨-, h, -⟩ | ⟨h, -⟩ | ⟨-, h | ⟨i, h⟩⟩
  case inr.inr.inr.inr =>
    rcases ownCause_cases i with hi | hi | hi | hi <;> rw [h, hi] <;> decide
  all_goals rw [h]; decide

/-- Inside the range PC_RANGE is no cause. -/
theorem causeByPriority_ne_pcRange {s : State} (hpc : s.pcInRange = true) : causeByPriority s ≠ .pcRange := by
  rcases causeByPriority_cases s with ⟨h, -⟩ | ⟨hout, -⟩ | ⟨h, -⟩ | ⟨-, h | ⟨i, h⟩⟩
  case inr.inl => exact nomatch hpc.symm.trans hout
  case inr.inr.inr.inr =>
    rcases ownCause_cases i with hi | hi | hi | hi <;> rw [h, hi] <;> decide
  all_goals rw [h]; decide

/-- Settles O11: `step_pcRange`, and inside the range the cause is another one, or the record stays NONE. -/
theorem pcRangeCheck : Obligations.PcRangeCheck := by
  unfold Obligations.PcRangeCheck
  intro s hrun hnone hq
  refine ⟨step_pcRange hrun hq, fun hpc t h => ?_⟩
  rcases step_cases h with hh | ⟨i, u, hr⟩
  · obtain ⟨-, hcause, -⟩ := hh.haltedAt
    exact hcause ▸ causeByPriority_ne_pcRange (s.pcInRange_iff.2 hpc)
  · obtain ⟨hcause, -⟩ := hr.record
    rw [hcause, hnone]; decide

theorem resolve_wrap_eq_mod {c : Config} (hp : c.oobPolicy = .wrap) (addr : Nat) :
    resolve c addr = some (addr % memSize) := by
  by_cases h : addr < memSize
  · rw [resolve_of_lt h, Nat.mod_eq_of_lt h]
  · exact resolve_of_wrap h hp

/-- Settles O12: under `fault` the second byte has no address and the fetch gives no word, under `wrap` both have one. -/
theorem fetchBeyondMemory : Obligations.FetchBeyondMemory := by
  unfold Obligations.FetchBeyondMemory
  intro s hrun hq hpc hend
  constructor
  · intro hp
    have hlo : s.memRead (s.pc.toNat + 1) = none :=
      State.memRead_of_unresolved (resolve_of_fault (Nat.not_lt.2 hend) hp)
    have hw : s.fetchWord = none := by
      unfold State.fetchWord
      cases s.memRead s.pc.toNat <;> simp only [hlo]
    have hno : s.nextInstr = none := by rw [State.nextInstr, hw, Option.bind_none]
    exact step_halts_spec hrun (fun _ _ i hi => (nomatch hno.symm.trans hi)) (by simp [causeByPriority, hq, hpc, hw])
      (by simp [recordedWord, hw])
  · intro hp
    simp only [State.fetchWord, State.memRead_of_resolve (resolve_wrap_eq_mod hp _), memSize]

/-- Settles O6: `decodeWord_none_iff`, and a word that does not decode gives the step no instruction. -/
theorem illegalWordsHaltDecode : Obligations.IllegalWordsHaltDecode := by
  unfold Obligations.IllegalWordsHaltDecode
  refine ⟨fun w => decodeWord_none_iff, fun s w hrun hq hpc hw hill => ?_⟩
  have hd : decodeWord w = none := decodeWord_none_iff.2 hill
  have hno : s.nextInstr = none := (nextInstr_of_fetchWord hw).trans hd
  exact step_halts_spec hrun (fun _ _ i hi => (nomatch hno.symm.trans hi))
    (by simp [causeByPriority, hq, hpc, hw, hd]) (by simp [recordedWord, hq, hpc, hw])

/-- A step into HALTED is a halting step. -/
theorem haltStep_of_halted {s t : State} (h : step s = .next t) (ht : t.run = .halted) : HaltStep s t := by
  rcases step_cases h with hh | ⟨i, u, hr⟩
  · exact hh
  · exact nomatch hr.run.symm.trans ht

/-- Settles O15: the frame of a halting step; the environment it leaves is the one after the read of the quit line. -/
theorem haltingStepCommitsNothing : Obligations.HaltingStepCommitsNothing := by
  unfold Obligations.HaltingStepCommitsNothing
  intro s t _ h ht
  have hh := haltStep_of_halted h ht
  rw [hh.env]
  exact ⟨hh.frame, hh.mem, rfl, rfl⟩

/-- Settles O17: the cause recorded is `causeByPriority`, by `HaltStep`. -/
theorem haltCauseByPriority : Obligations.HaltCauseByPriority := by
  unfold Obligations.HaltCauseByPriority
  intro s t _ h ht
  have hh := haltStep_of_halted h ht
  obtain ⟨-, hcause, -⟩ := hh.haltedAt
  rw [hcause]
  exact ⟨rfl, hh.cause, causeByPriority_ne_imageTooLarge s⟩

/-- No two causes share a code (R261). -/
theorem code_eq_iff (c d : HaltCause) : c.code = d.code ↔ c = d := by
  cases c <;> cases d <;> simp [HaltCause.code]

theorem exitClass_success_iff (c : HaltCause) : c.exitClass = some .success ↔ c = .quit ∨ c = .pcRange := by
  cases c <;> simp [HaltCause.exitClass]

theorem exitClass_failure_iff {c : HaltCause} (h : c ≠ .imageTooLarge) : c.exitClass = some .failure ↔
    c = .decode ∨ c = .stackOverflow ∨ c = .stackUnderflow ∨ c = .memRange := by
  cases c <;> simp_all [HaltCause.exitClass]

/-- The word recorded for each cause: none before the fetch, the word fetched after it. -/
theorem recordedWord_of_cause (s : State) :
    (causeByPriority s = .quit ∨ causeByPriority s = .pcRange → recordedWord s = 0)
      ∧ (causeByPriority s = .decode ∨ causeByPriority s = .stackOverflow ∨ causeByPriority s = .stackUnderflow →
          s.fetchWord = some (recordedWord s))
      ∧ (causeByPriority s = .memRange →
          (s.fetchWord = none ∧ recordedWord s = 0) ∨ s.fetchWord = some (recordedWord s)) := by
  rcases causeByPriority_cases s with ⟨h, hw⟩ | ⟨-, h, hw⟩ | ⟨h, hw⟩ | ⟨hw, h | ⟨i, h⟩⟩
  case inr.inr.inr.inr =>
    have hi := ownCause_cases i
    rw [h]
    refine ⟨?_, fun _ => hw, fun _ => .inr hw⟩
    rintro (hc | hc) <;> simp [hc] at hi
  all_goals simp [h, hw]

/-! The two ways a reset ends (spec 70_reset_and_hazards R300, R301). -/

theorem resetWith_of_fits {c : Config} {image : List Byte} (h : image.length ≤ 3584) : resetWith c image =
    { State.created c with mem := Memory.load (unlisted c) [] loadBase image, imageSize := image.length } := if_pos h

theorem resetWith_of_oversized {c : Config} {image : List Byte} (h : 3584 < image.length) : resetWith c image =
    { State.created c with run := .halted, haltCause := .imageTooLarge } := if_neg (Nat.not_le.2 h)

/-- Settles O16: the record of a halting step is `HaltStep.haltedAt`, its word `recordedWord_of_cause`; codes and classes
are functions of the cause. -/
theorem haltRecordsCauseWordAndAddress : Obligations.HaltRecordsCauseWordAndAddress := by
  unfold Obligations.HaltRecordsCauseWordAndAddress
  refine ⟨fun s t _ h ht => ?step, fun c image => ?reset⟩
  case step =>
    obtain ⟨-, hcause, hop, haddr, hpc⟩ := (haltStep_of_halted h ht).haltedAt
    obtain ⟨hnoWord, hword, hmem⟩ := recordedWord_of_cause s
    have hcode := code_eq_iff (causeByPriority s)
    rw [hcause, hop]
    exact ⟨haddr, hpc, hnoWord, hword, hmem, hcode .quit, hcode .pcRange, hcode .decode, hcode .stackOverflow,
      hcode .stackUnderflow, hcode .memRange, exitClass_success_iff _,
      exitClass_failure_iff (causeByPriority_ne_imageTooLarge s)⟩
  case reset =>
    refine ⟨fun hbig => ?_, fun hfits => ?_⟩
    · rw [resetWith_of_oversized hbig]; exact ⟨rfl, rfl, rfl⟩
    · rw [resetWith_of_fits hfits]; exact ⟨rfl, rfl⟩

end Sys2Proof.Machine
end

section
/-! SUPPORT. What a step that goes on does (spec 40_step_cycle R120 to R126), and which instructions can change a piece of
the state in a step (10_state R25, R31, R33, R34, 20_memory R63). -/

namespace Sys2Proof.Machine

/-- Settles O9: the two bytes make the word, so the instruction is the one at pc, and the rest are the phases of a step. -/
theorem stepRunsDecodedInstruction : Obligations.StepRunsDecodedInstruction := by
  unfold Obligations.StepRunsDecodedInstruction
  intro s hi lo i hrun hq hpc hhi hlo hdec
  have hw : s.fetchWord = some (joinBytes hi lo) := by simp only [State.fetchWord, hhi, hlo]
  have hd : decodeWord (joinBytes hi lo) = some i := by
    simp only [decode] at hdec
    cases hd : decodeWord (joinBytes hi lo) with
    | none => rw [hd] at hdec; cases hdec
    | some j => rw [hd] at hdec; cases hdec; rfl
  have hstep := step_of_nextInstr hrun hq hpc ((nextInstr_of_fetchWord hw).trans hd)
  refine ⟨hstep, fun t ht htrun => ?_, fun t ht hthalt => ?_, rfl, frame_afterQuit_advance s⟩
  · rw [hstep, ht, afterExecute, finishStep_running htrun]
  · rw [hstep, ht, afterExecute, finishStep_halted hthalt]

/-- Settles O23: the parameters and the image size are a piece that no halt and no rule names. -/
theorem parametersNeverChange : Obligations.ParametersNeverChange := by
  unfold Obligations.ParametersNeverChange
  intro s t h
  rcases step_cases h with hh | ⟨i, u, hr⟩
  · exact hh.frame .fixed (by decide)
  · exact hr.fixed

/-- Settles O24: the reads of a halting step are the one of the quit line; of a step that goes on, `RunStep.env`. -/
theorem portReadsPerStep : Obligations.PortReadsPerStep := by
  unfold Obligations.PortReadsPerStep
  intro s t _ h
  rcases step_cases h with hh | ⟨i, u, hr⟩
  · rw [hh.env]
    exact ⟨rfl, Nat.le_refl _, fun _ => rfl, fun hrun => (nomatch hh.run.symm.trans hrun)⟩
  · obtain ⟨hquit, hclock, hreads⟩ := hr.env
    exact ⟨by rw [hquit]; rfl, hclock, fun hhalt => (nomatch hr.run.symm.trans hhalt), fun _ => ⟨i, hr.instr, hreads⟩⟩

/-- A piece that a step changes is named by the rule of the instruction at pc, unless every step can change it. -/
theorem step_changes {s t : State} {p : Piece} (h : step s = .next t) (hp : p ∉ [.halt, .pc, .DT, .ST, .env])
    (hne : ¬ unchanged s t p) : ∃ i, s.nextInstr = some i ∧ p ∈ mayWrite i := by
  simp only [List.mem_cons, List.not_mem_nil, or_false, not_or] at hp
  obtain ⟨hhalt, hpc, hDT, hST, henv⟩ := hp
  rcases step_cases h with hh | ⟨i, u, hr⟩
  · exact absurd (hh.frame p (by simp [hhalt, henv])) hne
  · refine ⟨i, hr.instr, Classical.not_not.1 fun hi => hne (hr.frame p ?_)⟩
    simp [hi, hpc, hDT, hST, henv]

theorem I_mem_mayWrite {i : Instr} (h : .I ∈ mayWrite i) :
    (∃ n, i = .ldI n) ∨ (∃ x, i = .addI x) ∨ (∃ x, i = .ldF x) := by
  cases i <;> simp_all [mayWrite]

theorem fb_mem_mayWrite {i : Instr} (h : .fb ∈ mayWrite i) : i = .cls ∨ ∃ x y n, i = .drw x y n := by
  cases i <;> simp_all [mayWrite]

theorem mem_mem_mayWrite {i : Instr} (h : .mem ∈ mayWrite i) : (∃ x, i = .ldB x) ∨ ∃ x, i = .storeRegs x := by
  cases i <;> simp_all [mayWrite]

theorem DT_mem_mayWrite {i : Instr} (h : .DT ∈ mayWrite i) : ∃ x, i = .ldDTVx x := by
  cases i <;> simp_all [mayWrite]

theorem ST_mem_mayWrite {i : Instr} (h : .ST ∈ mayWrite i) : ∃ x, i = .ldSTVx x := by
  cases i <;> simp_all [mayWrite]

/-- Settles O25, by `step_changes`. -/
theorem indexRegisterWriters : Obligations.IndexRegisterWriters := by
  unfold Obligations.IndexRegisterWriters
  intro s t h hne
  obtain ⟨i, hi, hmem⟩ := step_changes (p := .I) h (by decide) hne
  exact ⟨i, hi, I_mem_mayWrite hmem⟩

/-- Settles O26, by `step_changes`. -/
theorem frameBufferWriters : Obligations.FrameBufferWriters := by
  unfold Obligations.FrameBufferWriters
  intro s t h hne
  obtain ⟨i, hi, hmem⟩ := step_changes (p := .fb) h (by decide) hne
  exact ⟨i, hi, fb_mem_mayWrite hmem⟩

/-- Settles O27: memory as data, so through `HaltStep.mem` and `RunStep.mem`. -/
theorem memoryWriters : Obligations.MemoryWriters := by
  unfold Obligations.MemoryWriters
  intro s t h hne
  rcases step_cases h with hh | ⟨i, u, hr⟩
  · exact absurd hh.mem hne
  · exact ⟨i, hr.instr, mem_mem_mayWrite (Classical.not_not.1 fun hi => hne (hr.mem hi))⟩

/-- A return lowers the depth and leaves the entries (spec 41_flow R141). -/
theorem RunStep.stack_of_ret {s t u : State} (h : RunStep s t .ret u) : t.stack = s.stack := by
  obtain rfl := Host.Outcome.next.inj (h.executed.symm.trans (exec_ret_of_used (s := s.afterQuit.advance) h.goes))
  obtain ⟨hstack, -⟩ := h.stack
  exact hstack

/-- Settles O28: only CALL and RET write the piece, and RET does not write an entry. -/
theorem stackWriters : Obligations.StackWriters := by
  unfold Obligations.StackWriters
  intro s t h
  rcases step_cases h with hh | ⟨i, u, hr⟩
  · obtain ⟨hstack, hsp⟩ := hh.frame .stack (by decide)
    exact ⟨fun hne => absurd hstack hne, fun hne => absurd hsp hne⟩
  · by_cases hi : .stack ∈ mayWrite i
    · rcases stack_mem_mayWrite hi with rfl | ⟨n, rfl⟩
      · exact ⟨fun hne => absurd hr.stack_of_ret hne, fun _ => .inl hr.instr⟩
      · exact ⟨fun _ => ⟨n, hr.instr⟩, fun _ => .inr ⟨n, hr.instr⟩⟩
    · obtain ⟨hstack, hsp⟩ := hr.frame .stack (by simp [hi])
      exact ⟨fun hne => absurd hstack hne, fun hne => absurd hsp hne⟩

/-- Settles O29: a halt leaves both timers; else a timer that its set instruction did not write is only decayed. -/
theorem timerCountsNeverIncrease : Obligations.TimerCountsNeverIncrease := by
  unfold Obligations.TimerCountsNeverIncrease
  intro s t h
  rcases step_cases h with hh | ⟨i, u, hr⟩
  · have hDT : t.DT = s.DT := hh.frame .DT (by decide)
    have hST : t.ST = s.ST := hh.frame .ST (by decide)
    rw [hDT, hST]
    exact ⟨fun _ => BitVec.le_refl _, fun _ => BitVec.le_refl _⟩
  · obtain ⟨hDT, hST, -, -⟩ := hr.timers
    refine ⟨fun hno => ?_, fun hno => ?_⟩
    · have hu : u.DT = s.DT := hr.kept.pieces .DT fun hi => by
        obtain ⟨x, rfl⟩ := DT_mem_mayWrite hi
        exact hno x hr.instr
      obtain ⟨hle, -⟩ := Timer.decay_spec u.cfg.tickUs u.now u.DT
      rw [hDT, ← hu]; exact hle
    · have hu : u.ST = s.ST := hr.kept.pieces .ST fun hi => by
        obtain ⟨x, rfl⟩ := ST_mem_mayWrite hi
        exact hno x hr.instr
      obtain ⟨hle, -⟩ := Timer.decay_spec u.cfg.tickUs u.afterNow.now u.ST
      rw [hST, ← hu]; exact hle

/-- Settles O36: `step_of_goesOn` and `RunStep.pc`, then `step_pcRange` in the state the step leaves. -/
theorem pcOutOfImageHaltsNextStep : Obligations.PcOutOfImageHaltsNextStep := by
  unfold Obligations.PcOutOfImageHaltsNextStep
  intro s i hrun hi hq hpc
  constructor
  · intro hg
    obtain ⟨t, u, ht, hr⟩ := step_of_goesOn hrun hq hpc hi hg
    exact ⟨t, ht, hr.run⟩
  · intro t h htrun
    rcases step_cases h with hh | ⟨j, u, hr⟩
    · exact nomatch hh.run.symm.trans htrun
    · obtain rfl : j = i := Option.some.inj (hr.instr.symm.trans hi)
      obtain ⟨-, hsize⟩ := hr.fixed
      exact ⟨hr.pc, fun hout hq' => step_pcRange htrun hq' (hsize ▸ hout)⟩

/-- A piece that is the same after all may be taken out of the frame's list. -/
theorem frame_of_cons {l : List Piece} {p : Piece} {s t : State} (h : frame (p :: l) s t) (hp : unchanged s t p) :
    frame l s t := by
  intro q hq
  by_cases hqp : q = p
  · exact hqp ▸ hp
  · exact h q (by simp [hqp, hq])

/-- Settles O57: the wait of FX0A changes pc and the environment alone and puts pc back at the instruction, so the frame
of the step is the timers and the environment, which the fetch of the next step does not look at. -/
theorem blockedKeyWaitIsAWholeStep : Obligations.BlockedKeyWaitIsAWholeStep := by
  unfold Obligations.BlockedKeyWaitIsAWholeStep
  intro s x hrun hi hq hpc hkey
  obtain ⟨t, u, ht, hr⟩ := step_of_goesOn hrun hq hpc hi trivial
  have hsame : t.pc = s.pc := by rw [hr.pc]; simp only [nextPc, hkey, if_true]
  have hu : u = s.afterQuit.advance.afterKeyWait.retreat :=
    Host.Outcome.next.inj (hr.executed.symm.trans (exec_ldVxK_blocked (s := s.afterQuit.advance) x hkey))
  have hwide := hr.frame_of_exec (hu ▸ frame_afterKeyWait_retreat s.afterQuit.advance)
  have hframe : frame [.DT, .ST, .env] s t := frame_of_cons (p := .pc) (frame_mono hwide (by simp)) hsame
  obtain ⟨hcfg, -⟩ := hr.fixed
  exact ⟨t, ht, hr.run, hsame, (nextInstr_congr hsame (hframe .mem (by decide)) hcfg).trans hi, hframe⟩

end Sys2Proof.Machine
end

section
/-! SUPPORT. Reset (spec 70_reset_and_hazards R300, R301, 10_state R42): the four invariants, and what memory reads. -/

namespace Sys2Proof.Machine

/-! ## The invariants -/

/-- The machine as created meets the invariants of the stack and pc with any image that fits. -/
theorem controlInv_created (c : Config) {t : State} (hstack : t.stack = (State.created c).stack) (hsp : t.sp = 0)
    (hpc : t.pc = 512) (hcfg : t.cfg = c) (himage : t.imageSize ≤ maxImage) : ControlInv t := by
  rw [ControlInv, hstack, hsp, hpc, hcfg]
  exact ⟨List.length_replicate, Nat.zero_le _, himage, by decide, fun k hk => absurd hk (Nat.not_lt_zero k)⟩

/-- A timer at reset was set at the time the clock shows, and does not count. -/
theorem timerOk_reset (tick : Nat) : TimerOk tick Env.reset.clock Timer.reset :=
  ⟨Nat.le_refl _, fun h => absurd rfl h⟩

/-- Each invariant after a reset, by the two ways it ends; an image that fits lies inside the memory. -/
theorem invariants_resetWith (c : Config) (image : List Byte) : ControlInv (resetWith c image)
    ∧ MemoryInv (resetWith c image) ∧ TimerInv (resetWith c image) ∧ HaltInv (resetWith c image) := by
  rcases Nat.lt_or_ge 3584 image.length with hbig | hfits
  · rw [resetWith_of_oversized hbig]
    exact ⟨controlInv_created c rfl rfl rfl rfl (Nat.zero_le _), Memory.wf_nil _,
      ⟨timerOk_reset _, timerOk_reset _⟩, nofun, fun _ => nofun⟩
  · rw [resetWith_of_fits hfits]
    have hmem : Memory.wf (unlisted c) (Memory.load (unlisted c) [] loadBase image) :=
      Memory.wf_load _ _ _ _ (by rw [loadBase, memSize]; omega) (Memory.wf_nil _)
    exact ⟨controlInv_created c rfl rfl rfl rfl hfits, hmem, ⟨timerOk_reset _, timerOk_reset _⟩,
      fun _ => ⟨rfl, rfl, rfl⟩, nofun⟩

/-- `State.reset` is the reset with the empty image (log 9). -/
theorem resetWith_nil : resetWith hardwareConfig [] = State.reset := rfl

/-- Settles O22, by `invariants_resetWith`. -/
theorem invariantsHoldAtReset : Obligations.InvariantsHoldAtReset := by
  unfold Obligations.InvariantsHoldAtReset
  exact ⟨resetWith_nil ▸ invariants_resetWith hardwareConfig [], invariants_resetWith⟩

/-! ## Memory after reset -/

theorem unlisted_of_font {c : Config} {k : Nat} (hk : k < 80) : unlisted c (c.fontBase + k) = c.fontData.getD k 0 := by
  rw [unlisted, if_pos ⟨Nat.le_add_right _ _, Nat.add_lt_add_left hk _⟩, Nat.add_sub_cancel_left]

theorem unlisted_outside_font {c : Config} {a : Nat} (h : ¬ (c.fontBase ≤ a ∧ a < c.fontBase + 80)) :
    unlisted c a = 0 := if_neg h

section memory
variable {c : Config} {image : List Byte} {a : Nat}

/-- A byte after the reset with an image that fits: the image's inside it, the default outside. -/
theorem readByte_resetWith_of_fits (h : image.length ≤ 3584) (a : Nat) : (resetWith c image).readByte a
    = if 512 ≤ a ∧ a < 512 + image.length then image.getD (a - 512) 0 else unlisted c a := by
  rw [resetWith_of_fits h]
  exact Memory.read_load (unlisted c) image [] loadBase a

theorem readByte_resetWith_in_image {k : Nat} (h : image.length ≤ 3584) (hk : k < image.length) :
    (resetWith c image).readByte (512 + k) = image.getD k 0 := by
  rw [readByte_resetWith_of_fits h, if_pos (by omega), Nat.add_sub_cancel_left]

/-- No byte of an image that does not fit is copied. -/
theorem readByte_resetWith_of_oversized (h : 3584 < image.length) (a : Nat) :
    (resetWith c image).readByte a = unlisted c a := by
  rw [resetWith_of_oversized h]; rfl

/-- Below the image a reset leaves the default, whatever the image. -/
theorem readByte_resetWith_below (ha : a < 512) : (resetWith c image).readByte a = unlisted c a := by
  rcases Nat.lt_or_ge 3584 image.length with hbig | hfits
  · exact readByte_resetWith_of_oversized hbig a
  · rw [readByte_resetWith_of_fits hfits, if_neg (by omega)]

end memory

/-- What a reset leaves does not depend on the image but for memory, the image size and the halt. -/
theorem resetWith_created (c : Config) (image : List Byte) : ∃ m size run cause, resetWith c image
    = { State.created c with mem := m, imageSize := size, run := run, haltCause := cause } := by
  rcases Nat.lt_or_ge 3584 image.length with hbig | hfits
  · exact ⟨_, _, _, _, resetWith_of_oversized hbig⟩
  · exact ⟨_, _, _, _, resetWith_of_fits hfits⟩

theorem reg_created (c : Config) (r : RegIdx) : (State.created c).reg r = 0 :=
  Vector.getElem_replicate r.isLt

theorem stack_created_getD (c : Config) (k : Nat) : (State.created c).stack.getD k 0 = 0 := by
  have hstack : (State.created c).stack = List.replicate c.stackCapacity 0 := rfl
  rw [hstack, List.getD_eq_getElem?_getD, List.getElem?_replicate]
  split <;> rfl

/-- Settles O60: memory by the lemmas above, the rest as the machine is created. -/
theorem resetLoadsImage : Obligations.ResetLoadsImage := by
  unfold Obligations.ResetLoadsImage
  intro c image hlegal
  obtain ⟨-, hfont⟩ : _ ∧ c.fontBase + 80 ≤ 512 := by
    simpa [Config.legal, fontGlyphs, glyphBytes, loadBase] using hlegal
  refine ⟨fun hfits => ?fits, fun hbig => ?oversized, fun k hk => ?font, ?rest⟩
  case fits =>
    have hstate := resetWith_of_fits (c := c) hfits
    refine ⟨by rw [hstate]; rfl, by rw [hstate]; rfl, by rw [hstate],
      fun k hk => readByte_resetWith_in_image hfits hk, fun a himage hout => ?_⟩
    rw [readByte_resetWith_of_fits hfits, if_neg himage, unlisted_outside_font hout]
  case oversized =>
    have hstate := resetWith_of_oversized (c := c) hbig
    refine ⟨by rw [hstate], by rw [hstate], by rw [hstate]; rfl, fun a hout => ?_⟩
    rw [readByte_resetWith_of_oversized hbig, unlisted_outside_font hout]
  case font => rw [readByte_resetWith_below (by omega), unlisted_of_font hk]
  case rest =>
    obtain ⟨m, size, run, cause, hstate⟩ := resetWith_created c image
    rw [hstate]
    exact ⟨rfl, reg_created c, rfl, rfl, stack_created_getD c, rfl, rfl, rfl, rfl, rfl, rfl, pixel_replicate_zero,
      rfl, rfl, rfl, resetWith_nil⟩

end Sys2Proof.Machine
end
